-- ==== Sys2Proof/Word.lean ====
section
/-! DEFINITION. The value types of the unit: bytes, 64-bit unsigned values, and signed 64-bit values held as their
two's-complement bits (spec 10_state R26, 00_scope R7, R11). -/

namespace Sys2Proof

/-- A byte is 8 bits (20_memory R41). -/
abbrev Byte := BitVec 8

/-- The unsigned value domain, 0 to 2^64 - 1 (00_scope R7). -/
abbrev U64 := BitVec 64

/-- The signed value domain, -2^63 to 2^63 - 1, as its 64 two's-complement bits; `BitVec.toInt` is its number
(00_scope R7, R10, R11). PRESUMED (the family's notation, corroborated by 44_sign_transform R151); safe; log 9. -/
abbrev I64 := BitVec 64

end Sys2Proof
end

