-- ==== Sys2Proof/Config.lean ====
section
/-! DEFINITION. The unit's constants (00_scope R6, R8, R9: fixed numbers, not fields of a configuration, 10_state R34),
the one open parameter of the port rendering (LENW), and the free values: what the spec says holds no defined value.
An `opaque` constant has no body, so no proof can use a value of it. -/

namespace Sys2Proof.Config

/-- BASE = 0xF8, the single-byte/multi-byte boundary (00_scope R6). -/
def BASE : Nat := 248

/-- MAXSIZE, the longest encoding in bytes (00_scope R8). -/
def MAXSIZE : Nat := 9

/-- MAXTRAIL = 2^64 - 1 - BASE, the largest trailing value that DEC accepts (00_scope R9, 43_decoder R134, R140). -/
def MAXTRAIL : Nat := 0xFFFFFFFFFFFFFF07

@[simp] theorem BASE_eq : BASE = 248 := rfl

@[simp] theorem MAXSIZE_eq : MAXSIZE = 9 := rfl

@[simp] theorem MAXTRAIL_eq : MAXTRAIL = 0xFFFFFFFFFFFFFF07 := rfl

/-- How far LENW lies above its least value 4: open (00_scope R10, 92_eei_decisions D8). Safe; log 5. -/
opaque lenwExtra : Nat

/-- LENW, the width of the `len` signal: an open parameter, at least 4 (10_state R27). Safe; log 5. -/
def lenw : Nat := 4 + lenwExtra

/-- Free value: what the `r` lines hold in the `n`-th response when they are not driven (10_state R28, R29; U1).
DESIGN CHOICE; safe; log 4. -/
opaque freeR (n : Nat) : BitVec 64

/-- Free value: what the `n` lines hold in the `n`-th response when they are not driven (10_state R28, R29; U1).
DESIGN CHOICE; safe; log 4. -/
opaque freeN (n : Nat) : BitVec 4

/-- Free value: what lane `i` of `dout` holds in the `n`-th response when its write enable is 0
(10_state R29, R30; U1, U2). DESIGN CHOICE; safe; log 4. -/
opaque freeDout (n i : Nat) : Byte

/-- Free value: by how much the `len` presented for a buffer too long for the signal lies above 9
(10_state R27). DESIGN CHOICE; safe; log 5. -/
opaque freeLen (n : Nat) : Nat

/-- Free value: what lane `i` of `din` holds in the `n`-th request when the source buffer has no byte there
(10_state R32). DESIGN CHOICE; safe; log 5. -/
opaque freeDin (n i : Nat) : Byte

end Sys2Proof.Config
end

