-- ==== Sys2Proof/Syntax.lean ====
section
/-! DEFINITION. The instructions: one constructor per row of spec/opcode_table.json. Six OP rows, named by the 3-bit
`op` select of a request (30_encoding R74, R75), whose operands are values on the request lines and not part of the
word (R74); and thirteen WIRE rows, the encodings of an integer by their header byte (R61 to R66, R79), whose operand
is the integer's bytes: the header itself (single byte) or the trailing value (multi-byte). -/

namespace Sys2Proof

/-- One constructor per row of the opcode table. -/
inductive Instr where
  /-- ESIZE, select 0: the size of the encoding of `a` (R90). -/
  | esize
  /-- ENC, select 1: write the encoding of `a` into the destination buffer (R100). -/
  | enc
  /-- DSIZE, select 2: the size an encoding has, from its header byte `hdr` (R120). -/
  | dsize
  /-- DEC, select 3: read the encoding at index 0 of the source buffer (R130). -/
  | dec
  /-- ZZENC, select 4: signed to unsigned (R150). -/
  | zzenc
  /-- ZZDEC, select 5: unsigned to signed (R155). -/
  | zzdec
  /-- W1a, header `0xxxxxxx`: a single-byte encoding, 0x00..0x7F; the value is the header (R61, R64). -/
  | w1a (value : Byte)
  /-- W1b, header `10xxxxxx`: a single-byte encoding, 0x80..0xBF. -/
  | w1b (value : Byte)
  /-- W1c, header `110xxxxx`: a single-byte encoding, 0xC0..0xDF. -/
  | w1c (value : Byte)
  /-- W1d, header `1110xxxx`: a single-byte encoding, 0xE0..0xEF. -/
  | w1d (value : Byte)
  /-- W1e, header `11110xxx`: a single-byte encoding, 0xF0..0xF7. -/
  | w1e (value : Byte)
  /-- W2, header 0xF8: one payload byte; `t` is the trailing value, zero-extended to 64 bits (R62, R65). -/
  | w2 (t : U64)
  /-- W3, header 0xF9: two payload bytes. -/
  | w3 (t : U64)
  /-- W4, header 0xFA: three payload bytes. -/
  | w4 (t : U64)
  /-- W5, header 0xFB: four payload bytes. -/
  | w5 (t : U64)
  /-- W6, header 0xFC: five payload bytes. -/
  | w6 (t : U64)
  /-- W7, header 0xFD: six payload bytes. -/
  | w7 (t : U64)
  /-- W8, header 0xFE: seven payload bytes. -/
  | w8 (t : U64)
  /-- W9, header 0xFF: eight payload bytes. -/
  | w9 (t : U64)
  deriving DecidableEq, Repr

/-- Where an instruction's bits stand: on the `op` select lines, or as bytes of an encoding, the header first. The two
kinds apply to different things and are not matched against each other (30_encoding R79). -/
inductive Code where
  | select (op : BitVec 3)
  | wire (bytes : List Byte)
  deriving DecidableEq, Repr

/-- Why a code names no instruction. Safe in every case: no meaning is given. -/
inductive DecodeError where
  /-- The select code is 6 or 7, which name no operation (10_state R33, 30_encoding R76). -/
  | unassignedSelect (op : BitVec 3)
  /-- There is no header byte (30_encoding R69, case empty). -/
  | emptyBuffer
  /-- There are fewer bytes than the header calls for (30_encoding R69, case truncated). -/
  | truncated
  deriving DecidableEq, Repr

end Sys2Proof
end

