-- ==== Sys2Proof/WellFormed.lean ====
section
/-! DEFINITION. Which instruction terms stand for an encoding: a single-byte row's value has the fixed bits of its row
(30_encoding R79), and a multi-byte row's trailing value fits its payload of k bytes, `T < 256^k` (R65, R68). An OP
row has no operand of its own. A W9 whose trailing value is above MAXTRAIL is well-formed: it is a syntactically
well-formed encoding that DEC answers with Overflow (60_exceptions R202). -/

namespace Sys2Proof

/-- The instruction is one that some word encodes. -/
def Instr.wellFormed : Instr → Bool
  | .esize | .enc | .dsize | .dec | .zzenc | .zzdec => true
  | .w1a v => v.toNat < 0x80
  | .w1b v => 0x80 ≤ v.toNat && v.toNat < 0xC0
  | .w1c v => 0xC0 ≤ v.toNat && v.toNat < 0xE0
  | .w1d v => 0xE0 ≤ v.toNat && v.toNat < 0xF0
  | .w1e v => 0xF0 ≤ v.toNat && v.toNat < 0xF8
  | .w2 t => t.toNat < 256 ^ 1
  | .w3 t => t.toNat < 256 ^ 2
  | .w4 t => t.toNat < 256 ^ 3
  | .w5 t => t.toNat < 256 ^ 4
  | .w6 t => t.toNat < 256 ^ 5
  | .w7 t => t.toNat < 256 ^ 6
  | .w8 t => t.toNat < 256 ^ 7
  | .w9 _ => true

end Sys2Proof
end

