-- ==== Sys2Proof/Decode.lean ====
section
/-! DEFINITION. The decoder of select codes and of encodings, the encoder, the table rows as masks and patterns, and
the host's table words. Byte order is decided here, once: the payload of an encoding is big-endian (20_memory R47). -/

namespace Sys2Proof

open Config

/-! ### Payload bytes -/

/-- The big-endian number of a payload: each byte enters as the new least significant byte of a 64-bit unsigned
accumulator that starts at 0 (43_decoder R130, R136; 30_encoding R65). -/
def trailing (payload : List Byte) : U64 :=
  payload.foldl (fun acc b => (acc <<< 8) ||| b.setWidth 64) 0

/-- The `k` low bytes of `t`, most significant first: the byte at index `i` of the encoding is
`t[8*(k-i)+7 : 8*(k-i)]` (30_encoding R66, 41_encoder R100, R105). -/
def beBytes : Nat → U64 → List Byte
  | 0, _ => []
  | k + 1, t => (t >>> (8 * k)).setWidth 8 :: beBytes k t

/-- How many payload bytes follow a header: none below BASE, else `header - BASE + 1` (30_encoding R61, R63). -/
def payloadCount (header : Byte) : Nat :=
  if header.toNat < BASE then 0 else header.toNat - BASE + 1

/-! ### Decoding -/

/-- The operation a select code names; codes 6 and 7 name none (30_encoding R75, R76). -/
def decodeSelect (op : BitVec 3) : Except DecodeError Instr :=
  match op.toNat with
  | 0 => .ok .esize
  | 1 => .ok .enc
  | 2 => .ok .dsize
  | 3 => .ok .dec
  | 4 => .ok .zzenc
  | 5 => .ok .zzdec
  | _ => .error (.unassignedSelect op)

/-- The WIRE row of a header byte, holding the trailing value `t` when the row has a payload: the masks and patterns
of the table (30_encoding R63, R79). -/
def wireRow (header : Byte) (t : U64) : Instr :=
  if header &&& 0x80 = 0x00 then .w1a header
  else if header &&& 0xC0 = 0x80 then .w1b header
  else if header &&& 0xE0 = 0xC0 then .w1c header
  else if header &&& 0xF0 = 0xE0 then .w1d header
  else if header &&& 0xF8 = 0xF0 then .w1e header
  else if header = 0xF8 then .w2 t
  else if header = 0xF9 then .w3 t
  else if header = 0xFA then .w4 t
  else if header = 0xFB then .w5 t
  else if header = 0xFC then .w6 t
  else if header = 0xFD then .w7 t
  else if header = 0xFE then .w8 t
  else .w9 t

/-- The encoding at the front of a byte sequence, and the bytes after it: the length comes from the header alone
(30_encoding R72), and every header is valid (R63, R69). -/
def decodeWire : List Byte → Except DecodeError (Instr × List Byte)
  | [] => .error .emptyBuffer
  | header :: rest =>
    let k := payloadCount header
    if rest.length < k then .error .truncated
    else .ok (wireRow header (trailing (rest.take k)), rest.drop k)

/-- The instruction of a code; bytes after an encoding are ignored (20_memory R43). -/
def decode : Code → Except DecodeError Instr
  | .select op => decodeSelect op
  | .wire bytes => (decodeWire bytes).map Prod.fst

/-- The encodings laid end to end in a byte sequence, at most `fuel` of them (45_arithmetic_and_laws R184). -/
def decodeStream : Nat → List Byte → Except DecodeError (List Instr)
  | _, [] => .ok []
  | 0, _ :: _ => .error .truncated
  | fuel + 1, b :: bs =>
    match decodeWire (b :: bs) with
    | .error e => .error e
    | .ok (i, rest) => (decodeStream fuel rest).map (i :: ·)

/-! ### Encoding -/

/-- The header byte of a multi-byte encoding of `size` bytes: `BASE + (size - 2)` (41_encoder R104). -/
def multiHeader (size : Nat) : Byte := BitVec.ofNat 8 (BASE + (size - 2))

/-- The bytes of a multi-byte encoding of `size` bytes with trailing value `t` (30_encoding R62). -/
def multiBytes (size : Nat) (t : U64) : List Byte := multiHeader size :: beBytes (size - 1) t

/-- The code of an instruction: its select code (30_encoding R75), or its bytes (R62). -/
def encode : Instr → Code
  | .esize => .select 0
  | .enc => .select 1
  | .dsize => .select 2
  | .dec => .select 3
  | .zzenc => .select 4
  | .zzdec => .select 5
  | .w1a v | .w1b v | .w1c v | .w1d v | .w1e v => .wire [v]
  | .w2 t => .wire (multiBytes 2 t)
  | .w3 t => .wire (multiBytes 3 t)
  | .w4 t => .wire (multiBytes 4 t)
  | .w5 t => .wire (multiBytes 5 t)
  | .w6 t => .wire (multiBytes 6 t)
  | .w7 t => .wire (multiBytes 7 t)
  | .w8 t => .wire (multiBytes 8 t)
  | .w9 t => .wire (multiBytes 9 t)

/-- The bytes a code stands for on the wire; a select code has none (10_state R74 is beside, not packed with, bytes). -/
def Code.bytes : Code → List Byte
  | .select _ => []
  | .wire bs => bs

/-- The number of bytes of the encoding a WIRE row stands for; an OP row has none (30_encoding R62). -/
def Instr.wireSize : Instr → Nat
  | .esize | .enc | .dsize | .dec | .zzenc | .zzdec => 0
  | .w1a _ | .w1b _ | .w1c _ | .w1d _ | .w1e _ => 1
  | .w2 _ => 2
  | .w3 _ => 3
  | .w4 _ => 4
  | .w5 _ => 5
  | .w6 _ => 6
  | .w7 _ => 7
  | .w8 _ => 8
  | .w9 _ => 9

/-! ### The opcode table -/

/-- The mask and the pattern of an instruction's row, and whether it is a WIRE row (30_encoding R79). -/
def Instr.row : Instr → Bool × Nat × Nat
  | .esize => (false, 0x7, 0x0)
  | .enc => (false, 0x7, 0x1)
  | .dsize => (false, 0x7, 0x2)
  | .dec => (false, 0x7, 0x3)
  | .zzenc => (false, 0x7, 0x4)
  | .zzdec => (false, 0x7, 0x5)
  | .w1a _ => (true, 0x80, 0x00)
  | .w1b _ => (true, 0xC0, 0x80)
  | .w1c _ => (true, 0xE0, 0xC0)
  | .w1d _ => (true, 0xF0, 0xE0)
  | .w1e _ => (true, 0xF8, 0xF0)
  | .w2 _ => (true, 0xFF, 0xF8)
  | .w3 _ => (true, 0xFF, 0xF9)
  | .w4 _ => (true, 0xFF, 0xFA)
  | .w5 _ => (true, 0xFF, 0xFB)
  | .w6 _ => (true, 0xFF, 0xFC)
  | .w7 _ => (true, 0xFF, 0xFD)
  | .w8 _ => (true, 0xFF, 0xFE)
  | .w9 _ => (true, 0xFF, 0xFF)

/-- The masks and patterns of the thirteen WIRE rows, in the table's order (30_encoding R79). -/
def wireTable : List (Nat × Nat) :=
  [(0x80, 0x00), (0xC0, 0x80), (0xE0, 0xC0), (0xF0, 0xE0), (0xF8, 0xF0)] ++
  [(0xFF, 0xF8), (0xFF, 0xF9), (0xFF, 0xFA), (0xFF, 0xFB), (0xFF, 0xFC), (0xFF, 0xFD), (0xFF, 0xFE), (0xFF, 0xFF)]

/-! ### Table words -/

/-- Whether a table word of `nbits` bits is read as a select code: the table's OP rows have 3 bits, one byte when
rounded up, and so share their numbering with the headers 0 to 5. DESIGN CHOICE; safe: no step depends on it; log 7. -/
def isSelectWord (nbits w : Nat) : Bool := nbits < 8 || (nbits == 8 && w < 6)

/-- The bytes of a table word, the first byte's bits lowest, followed by operand bytes of zeros up to the longest
encoding. -/
def tableBytes (w : Nat) : List Byte :=
  (List.range MAXSIZE).map fun i => BitVec.ofNat 8 (w / 256 ^ i)

/-- Where a table word's bits stand. DESIGN CHOICE; log 7. -/
def tableCode (nbits w : Nat) : Code :=
  if isSelectWord nbits w then .select (BitVec.ofNat 3 w) else .wire (tableBytes w)

/-- What the decoder reads from a table word. -/
def decodeTableWord (nbits w : Nat) : Option Instr := (decode (tableCode nbits w)).toOption

end Sys2Proof
end

