-- ==== Sys2Proof/Machine/State.lean ====
section
/-! DEFINITION. The state. The unit itself holds none (00_scope R13, 10_state R20 to R24, R34): `State` holds what the
rules speak of around it, the caller's memory, the requests the caller has issued, the request lines and the last
response. All plain data. -/

namespace Sys2Proof.Machine

/-- The two error kinds, and no third (60_exceptions R200, R205). They are results, not faults (R206, R208). -/
inductive Err where
  /-- A supplied byte region is shorter than the length required (R201). -/
  | insufficientBuffer
  /-- A nine-byte encoding whose trailing value would take the result past 2^64 - 1 (R202). -/
  | overflow
  deriving DecidableEq, Repr

/-- The tagged result of an operation (10_state R26): each operation's success values, or an error kind and nothing
else (R29). Sizes and counts are natural numbers, in 1..9 by `Response.coherent`. -/
inductive Result where
  /-- ESIZE and DSIZE: `size`. -/
  | size (n : Nat)
  /-- ENC: `bytes_written`. -/
  | written (n : Nat)
  /-- DEC: `(value, bytes_consumed)`. -/
  | decoded (value : U64) (n : Nat)
  /-- ZZENC: the unsigned value. -/
  | unsigned (w : U64)
  /-- ZZDEC: the signed value, as its 64 bits. -/
  | signed (v : I64)
  /-- The operation failed (ENC and DEC only, 60_exceptions R203). -/
  | failure (e : Err)
  deriving DecidableEq, Repr

/-- A run of bytes of the caller's memory that an invocation in progress on another thread touches, and whether it is
an ENC's (20_memory R54). -/
structure Extent where
  base : Nat
  len : Nat
  writes : Bool
  deriving DecidableEq, Repr

/-- One request: the signals of 10_state R27. The buffer operand is the `len` bytes of the caller's memory from `base`
on; its own length is thereby true (70_reset_and_hazards R232; log 2). `concurrent` is no signal: it is the caller's
declaration of what invocations not ordered with this request touch (20_memory R54; log 6). -/
structure Request where
  op : BitVec 3
  a : U64
  hdr : Byte
  base : Nat
  len : Nat
  concurrent : List Extent
  deriving DecidableEq, Repr

/-- One response: the tagged result, the bytes ENC stored at indices 0.. of its destination (none otherwise), and the
number of the free values its undriven signals hold. Its signals are `Response.signals` (10_state R28). -/
structure Response where
  result : Result
  stored : List Byte
  draw : Nat
  deriving DecidableEq, Repr

/-- The caller's memory: the bytes that are not 0x00, by rising address (log 2). -/
abbrev Memory := List Host.Cell

/-- The caller's memory, requests and responses; the unit has no state of its own (10_state R35). -/
structure State where
  /-- The caller's memory, in which buffers lie (10_state R25, 20_memory R40). -/
  mem : Memory
  /-- The requests the caller has issued and the unit has not served, oldest first (20_memory R53; log 1). -/
  pending : List Request
  /-- The request on the request lines (10_state R27). -/
  req : Request
  /-- The last response; none before the first operation (10_state R28; log 3). -/
  response : Option Response
  /-- The model's own counter of responses, from which undriven signals take free values (log 4). -/
  draws : Nat
  deriving DecidableEq, Repr

/-- A fault stops the machine. The unit has no fault state: "No condition in this core is fatal" (60_exceptions R208),
and no rule is treated as a fault (93_implementation_defined). So there is no fault; nothing raises one. -/
inductive Fault where
  deriving DecidableEq, Repr

/-- Why a step gives no meaning. -/
inductive Refusal where
  /-- Raised by `exec` for an instruction that has no meaning yet; no arm does. Safe. -/
  | notModelled (mnemonic : String)
  /-- Raised by `step` for a request whose select code is 6 or 7: no operation, and no response is defined
  (10_state R33, 30_encoding R76; U3). Safe. -/
  | unassignedSelect (op : BitVec 3)
  /-- Raised by ENC and DEC when a byte they touch is touched by an invocation that is not ordered with them, one of
  the two being an ENC (20_memory R54, 70_reset_and_hazards R241; U5). Safe. -/
  | unserializedOverlap
  deriving DecidableEq, Repr

/-- The request lines before any request: zeros and an empty buffer. DESIGN CHOICE; unsafe; log 3. -/
def Request.zero : Request :=
  { op := 0, a := 0, hdr := 0, base := 0, len := 0, concurrent := [] }

/-- The machine right after reset. The unit has nothing to reset (10_state R35, 70_reset_and_hazards R230): no request
has been made, no response given, and no byte of the caller's memory is listed. Logs 1 to 4. -/
def State.reset : State :=
  { mem := [], pending := [], req := Request.zero, response := none, draws := 0 }

end Sys2Proof.Machine
end

