-- ==== Sys2Proof/Machine/Ops.lean ====
section
/-! DEFINITION. The named operations over memory and the request and response lines, and ending an operation in an
error (`State.fail`), which is all this unit has in the place of an exception (60_exceptions R204, R206, R207). -/

namespace Sys2Proof.Machine

/-! ### The caller's memory -/

/-- The byte at an address; an unlisted address reads 0x00. DESIGN CHOICE; unsafe; log 2. -/
def Memory.read : Memory → Nat → Byte
  | [], _ => 0
  | (x, b) :: rest, a => if x = a then b else Memory.read rest a

/-- Set the byte at an address, keeping addresses strictly rising and no 0x00 listed. -/
def Memory.write : Memory → Nat → Byte → Memory
  | [], a, b => if b = 0 then [] else [(a, b)]
  | (x, c) :: rest, a, b =>
    if a < x then (if b = 0 then (x, c) :: rest else (a, b) :: (x, c) :: rest)
    else if a = x then (if b = 0 then rest else (a, b) :: rest)
    else (x, c) :: Memory.write rest a b

/-- Set the bytes from an address on. -/
def Memory.writeBytes : Memory → Nat → List Byte → Memory
  | m, _, [] => m
  | m, a, b :: bs => Memory.writeBytes (m.write a b) (a + 1) bs

/-- The `n` bytes from an address on. -/
def Memory.bytes (m : Memory) (a n : Nat) : List Byte := (List.range n).map fun i => m.read (a + i)

/-- The canonical form: addresses strictly rising, and no entry equal to what an unlisted address reads as. -/
abbrev Memory.wf (m : Memory) : Prop :=
  m.Pairwise (fun x y => x.1 < y.1) ∧ ∀ c ∈ m, c.2 ≠ 0

/-! ### Requests and responses -/

/-- The caller issues a request: it is served after those issued before it (20_memory R53, 70_reset_and_hazards
R248). -/
def State.issue (s : State) (r : Request) : State := { s with pending := s.pending ++ [r] }

/-- Put the oldest request not yet served on the request lines; none when there is none. -/
def State.present? (s : State) : Option State :=
  match s.pending with
  | [] => none
  | r :: rest => some { s with req := r, pending := rest }

/-- End an operation in success: the result is on the response lines and `stored` is in the destination from index 0
on (10_state R28, R30). One atomic update (20_memory R50). -/
def State.reply (s : State) (result : Result) (stored : List Byte) : State :=
  { s with
    mem := s.mem.writeBytes s.req.base stored
    response := some { result := result, stored := stored, draw := s.draws }
    draws := s.draws + 1 }

/-- End an operation in an error, the spec's `raise`: nothing has been or will be written, nothing is saved, control
goes nowhere, and the result carries the kind alone (60_exceptions R204, R206; 10_state R29). There is no return from
it: the next request is served as if this one had not been issued (R207). -/
def State.fail (s : State) (e : Err) : State := s.reply (.failure e) []

/-- A reset input, where an implementation has one: it changes no caller buffer, and nothing a request can observe
(10_state R35, 70_reset_and_hazards R230). Log 10. -/
def State.resetPulse (s : State) : State := s

/-! ### Overlap with invocations that are not ordered with the request -/

/-- The `n` bytes from `base` on have a byte in common with an extent. -/
def Extent.meets (e : Extent) (base n : Nat) : Bool := max base e.base < min (base + n) (e.base + e.len)

/-- Touching the first `n` bytes of the request's buffer, writing them or only reading, breaks the rule that two
unordered operations touching a common byte are both reads (20_memory R54, R55). Log 6. -/
def State.overlaps (s : State) (n : Nat) (writes : Bool) : Bool :=
  s.req.concurrent.any fun e => (writes || e.writes) && e.meets s.req.base n

/-! ### Table words -/

/-- The request that will be served next with another select code; a request of zeros when there is none. -/
def State.nextRequest (s : State) : Request := s.pending.headD Request.zero

/-- `s` with a table word where the next request is fetched: a select code replaces the next request's `op`; the bytes
of an encoding become the source buffer of a DEC request (30_encoding R79; logs 1, 7, 8). -/
def State.place (s : State) : Code → State
  | .select op => { s with pending := { s.nextRequest with op := op } :: s.pending.tail }
  | .wire bytes =>
    { s with
      mem := s.mem.writeBytes s.nextRequest.base bytes
      pending :=
        { s.nextRequest with op := 3, len := bytes.length, concurrent := [] } :: s.pending.tail }

end Sys2Proof.Machine
end

