-- ==== Sys2Proof/Machine/Codec.lean ====
section
/-! DEFINITION. The six functions at the abstract level, which is the normative one (10_state R26, 92_eei_decisions
D2): their arithmetic is the pseudocode of files 40 to 44. `Codec.encBuffer` and `Codec.decBuffer` are ENC and DEC as
functions of whole buffers; the machine's ENC never reads its destination and its DEC reads no byte the pseudocode
does not read (20_memory R42, R44), so the meanings use `Codec.enc` and `Codec.dec`, which show that. -/

namespace Sys2Proof.Machine

open Config

/-- The inclusive upper bound of the values that take `k` payload bytes, `BASE + (256^k - 1)`, for `k` in 1..7
(40_size_calculator R90, R91). -/
def Codec.bound (k : Nat) : Nat := BASE + (256 ^ k - 1)

/-- ESIZE (40_size_calculator R90): unsigned comparisons on the whole value. -/
def Codec.esize (v : U64) : Nat :=
  if v.toNat < BASE then 1
  else if v.toNat ≤ Codec.bound 1 then 2
  else if v.toNat ≤ Codec.bound 2 then 3
  else if v.toNat ≤ Codec.bound 3 then 4
  else if v.toNat ≤ Codec.bound 4 then 5
  else if v.toNat ≤ Codec.bound 5 then 6
  else if v.toNat ≤ Codec.bound 6 then 7
  else if v.toNat ≤ Codec.bound 7 then 8
  else 9

/-- The bytes ENC writes for a value, its canonical encoding (41_encoder R100, R108): the value itself, or the header
and the payload of `value - BASE`. -/
def Codec.encoding (v : U64) : List Byte :=
  if Codec.esize v = 1 then [v.setWidth 8]
  else multiBytes (Codec.esize v) (v - BitVec.ofNat 64 BASE)

/-- ENC (41_encoder R100) of a value into a destination of `len` bytes: the bytes to write from index 0 on. The length
is compared first; the destination's contents are no operand (R107). -/
def Codec.enc (v : U64) (len : Nat) : Except Err (List Byte) :=
  if len < Codec.esize v then .error .insufficientBuffer else .ok (Codec.encoding v)

/-- ENC on a whole destination buffer: the result and the buffer afterwards (10_state R26; 90_conflicts C5). -/
def Codec.encBuffer (v : U64) (destination : List Byte) : Except Err Nat × List Byte :=
  match Codec.enc v destination.length with
  | .error e => (.error e, destination)
  | .ok bytes => (.ok bytes.length, bytes ++ destination.drop bytes.length)

/-- DSIZE (42_header_size_resolver R120). -/
def Codec.dsize (header : Byte) : Nat :=
  if header.toNat < BASE then 1 else header.toNat - BASE + 2

/-- The end of a multi-byte decode: the trailing value is compared with MAXTRAIL, unsigned and before the addition,
so that `trailing + BASE` never wraps (43_decoder R130, R134, R140). -/
def Codec.finish (t : U64) (size : Nat) : Except Err (U64 × Nat) :=
  if t.toNat > MAXTRAIL then .error .overflow else .ok (t + BitVec.ofNat 64 BASE, size)

/-- DEC (43_decoder R130) of a source of `len` bytes read through `memRead`. The tests stand in the order of R138; no
index at or above `len` is read, and only index 0 when the source is short (R132). -/
def Codec.dec (len : Nat) (memRead : Nat → Byte) : Except Err (U64 × Nat) :=
  if len = 0 then .error .insufficientBuffer
  else
    let header := memRead 0
    let size := Codec.dsize header
    if len < size then .error .insufficientBuffer
    else if size = 1 then .ok (header.setWidth 64, 1)
    else Codec.finish (trailing ((List.range' 1 (size - 1)).map memRead)) size

/-- DEC on a whole source buffer (10_state R26). -/
def Codec.decBuffer (source : List Byte) : Except Err (U64 × Nat) :=
  Codec.dec source.length fun i => source.getD i 0

/-- How many bytes from index 0 on DEC reads: none of an empty source, one of a short source, else the encoding
(20_memory R44, 43_decoder R132). -/
def Codec.decTouches (len : Nat) (memRead : Nat → Byte) : Nat :=
  if len = 0 then 0
  else if len < Codec.dsize (memRead 0) then 1
  else Codec.dsize (memRead 0)

/-- ZZENC (44_sign_transform R150): doubling, complemented when the value is negative; bit 63 is dropped (45 R171). -/
def Codec.zzenc (v : I64) : U64 :=
  if 0 ≤ v.toInt then v <<< 1 else ~~~(v <<< 1)

/-- ZZDEC (44_sign_transform R155): the logical right shift, complemented when bit 0 is 1. -/
def Codec.zzdec (w : U64) : I64 :=
  if w.getLsbD 0 then ~~~(w >>> 1) else w >>> 1

end Sys2Proof.Machine
end

