-- ==== Sys2Proof/Machine/Operands.lean ====
section
/-! DEFINITION. The operand forms (00_scope R14, 10_state R26, R27): the 64-bit value on `a`, the header byte on
`hdr`, and a buffer with its length; there is no other form, no register and no addressing mode. -/

namespace Sys2Proof.Machine

/-- The unsigned 64-bit operand of ESIZE, ENC and ZZDEC (10_state R27). -/
def State.value (s : State) : U64 := s.req.a

/-- The signed 64-bit operand of ZZENC, as its bits (10_state R27). -/
def State.signedValue (s : State) : I64 := s.req.a

/-- The header operand of DSIZE (10_state R27, 92_eei_decisions D19). -/
def State.header (s : State) : Byte := s.req.hdr

/-- The length L of the buffer operand (10_state R27, 20_memory R41). -/
def State.bufLen (s : State) : Nat := s.req.len

/-- The byte at index `i` of the buffer operand: the only address the unit knows is the index (20_memory R41, R51). -/
def State.bufByte (s : State) (i : Nat) : Byte := s.mem.read (s.req.base + i)

/-- The whole buffer operand as a byte sequence (10_state R26). -/
def State.buffer (s : State) : List Byte := s.mem.bytes s.req.base s.req.len

end Sys2Proof.Machine
end

