-- ==== Sys2Proof/Machine/Flags.lean ====
section
/-! DEFINITION. The unit stores no flag (10_state R22); what stands in the place of flags is the response's signals:
the status code, the result and count lines, the data lanes and the write enables (R28 to R30), all computed from the
response. A signal the rules do not drive holds a free value (R29; log 4). -/

namespace Sys2Proof.Machine

open Config

/-- `status`: 0 success, 1 InsufficientBuffer, 2 Overflow; 3 is never produced (10_state R28; log 11). -/
def Result.status : Result → BitVec 2
  | .failure .insufficientBuffer => 1
  | .failure .overflow => 2
  | .size _ | .written _ | .decoded _ _ | .unsigned _ | .signed _ => 0

/-- The 64-bit result, where the operation drives `r` (10_state R28: DEC, ZZENC, ZZDEC). -/
def Result.value? : Result → Option (BitVec 64)
  | .decoded v _ => some v
  | .unsigned w => some w
  | .signed v => some v
  | .size _ | .written _ | .failure _ => none

/-- The size or count, where the operation drives `n` (10_state R28: ESIZE, ENC, DSIZE, DEC). -/
def Result.count? : Result → Option Nat
  | .size n | .written n | .decoded _ n => some n
  | .unsigned _ | .signed _ | .failure _ => none

/-- The response signals (10_state R28). -/
structure Signals where
  status : BitVec 2
  r : BitVec 64
  n : BitVec 4
  dout : Vector Byte 9
  we : BitVec 9
  deriving DecidableEq, Repr

/-- Lane `i` of `dout`: the byte to store, or a free value (10_state R28, R30). -/
def Response.lane (p : Response) (i : Nat) : Byte := p.stored.getD i (freeDout p.draw i)

/-- `we`: one enable for each byte stored, from index 0 on (10_state R30). -/
def Response.enables (p : Response) : BitVec 9 := BitVec.ofNat 9 (2 ^ p.stored.length - 1)

/-- The signals of a response. -/
def Response.signals (p : Response) : Signals :=
  { status := p.result.status
    r := p.result.value?.getD (freeR p.draw)
    n := (p.result.count?.map (BitVec.ofNat 4)).getD (freeN p.draw)
    dout := #v[p.lane 0, p.lane 1, p.lane 2, p.lane 3, p.lane 4, p.lane 5, p.lane 6, p.lane 7, p.lane 8]
    we := p.enables }

end Sys2Proof.Machine
end

