-- ==== Sys2Proof/Machine/Buffer.lean ====
section
/-! DEFINITION. The buffer family: ENC and DEC, the only operations that touch memory or can fail (60_exceptions R203).
Each is refused when a byte it touches is touched by an invocation not ordered with it (20_memory R54; log 6). -/

namespace Sys2Proof.Machine

/-- End a decode: success with value and count, or the error. -/
def State.finishDecode (s : State) (r : Except Err (U64 × Nat)) : State :=
  match r with
  | .error e => s.fail e
  | .ok (v, n) => s.reply (.decoded v n) []

/-- ENC (41_encoder R100): it touches the bytes it stores, and none when it fails (20_memory R44). -/
def execEnc (s : State) : Host.Outcome State Fault Refusal :=
  match Codec.enc s.value s.bufLen with
  | .error e => .next (s.fail e)
  | .ok bytes =>
    if s.overlaps bytes.length true then .refused .unserializedOverlap
    else .next (s.reply (.written bytes.length) bytes)

/-- DEC (43_decoder R130): it touches the bytes it reads (20_memory R44) and writes none. -/
def execDec (s : State) : Host.Outcome State Fault Refusal :=
  if s.overlaps (Codec.decTouches s.bufLen s.bufByte) false then .refused .unserializedOverlap
  else .next (s.finishDecode (Codec.dec s.bufLen s.bufByte))

end Sys2Proof.Machine
end

