-- ==== Sys2Proof/Machine/Sign.lean ====
section
/-! DEFINITION. The sign family: ZZENC and ZZDEC. Both are total, touch no memory, and are never applied by another
operation (44_sign_transform R159). -/

namespace Sys2Proof.Machine

/-- ZZENC (44_sign_transform R150). -/
def execZzenc (s : State) : Host.Outcome State Fault Refusal :=
  .next (s.reply (.unsigned (Codec.zzenc s.signedValue)) [])

/-- ZZDEC (44_sign_transform R155). -/
def execZzdec (s : State) : Host.Outcome State Fault Refusal :=
  .next (s.reply (.signed (Codec.zzdec s.value)) [])

end Sys2Proof.Machine
end

