-- ==== Sys2Proof/Machine/Size.lean ====
section
/-! DEFINITION. The size family: ESIZE and DSIZE. Both are total and touch no memory. -/

namespace Sys2Proof.Machine

/-- ESIZE (40_size_calculator R90). -/
def execEsize (s : State) : Host.Outcome State Fault Refusal :=
  .next (s.reply (.size (Codec.esize s.value)) [])

/-- DSIZE (42_header_size_resolver R120). -/
def execDsize (s : State) : Host.Outcome State Fault Refusal :=
  .next (s.reply (.size (Codec.dsize s.header)) [])

end Sys2Proof.Machine
end

