-- ==== Sys2Proof/Machine/Wire.lean ====
section
/-! DEFINITION. The WIRE family: the thirteen rows of encodings (30_encoding R62, R63). Run as an instruction, a row
does what DEC does with that encoding at the head of a source buffer that holds all of it: the value and the number of
bytes consumed, or Overflow (R64, R65, R69; log 8). No memory is touched: the row's operand is the encoding's bytes. -/

namespace Sys2Proof.Machine

/-- A single-byte encoding: the value is the header, zero-extended, and one byte is consumed (30_encoding R64,
43_decoder R133). -/
def State.singleByte (s : State) (header : Byte) : State :=
  s.finishDecode (.ok (header.setWidth 64, 1))

/-- A multi-byte encoding of `size` bytes with trailing value `t` (30_encoding R65, 43_decoder R134, R135). -/
def State.multiByte (s : State) (t : U64) (size : Nat) : State :=
  s.finishDecode (Codec.finish t size)

/-- W1a, header 0x00..0x7F (30_encoding R63, R64). -/
def execW1a (value : Byte) (s : State) : Host.Outcome State Fault Refusal :=
  .next (s.singleByte value)

/-- W1b, header 0x80..0xBF (30_encoding R63, R64). -/
def execW1b (value : Byte) (s : State) : Host.Outcome State Fault Refusal :=
  .next (s.singleByte value)

/-- W1c, header 0xC0..0xDF (30_encoding R63, R64). -/
def execW1c (value : Byte) (s : State) : Host.Outcome State Fault Refusal :=
  .next (s.singleByte value)

/-- W1d, header 0xE0..0xEF (30_encoding R63, R64). -/
def execW1d (value : Byte) (s : State) : Host.Outcome State Fault Refusal :=
  .next (s.singleByte value)

/-- W1e, header 0xF0..0xF7 (30_encoding R63, R64). -/
def execW1e (value : Byte) (s : State) : Host.Outcome State Fault Refusal :=
  .next (s.singleByte value)

/-- W2, header 0xF8: 1 payload byte (30_encoding R62, R65). -/
def execW2 (t : U64) (s : State) : Host.Outcome State Fault Refusal :=
  .next (s.multiByte t 2)

/-- W3, header 0xF9: 2 payload bytes (30_encoding R62, R65). -/
def execW3 (t : U64) (s : State) : Host.Outcome State Fault Refusal :=
  .next (s.multiByte t 3)

/-- W4, header 0xFA: 3 payload bytes (30_encoding R62, R65). -/
def execW4 (t : U64) (s : State) : Host.Outcome State Fault Refusal :=
  .next (s.multiByte t 4)

/-- W5, header 0xFB: 4 payload bytes (30_encoding R62, R65). -/
def execW5 (t : U64) (s : State) : Host.Outcome State Fault Refusal :=
  .next (s.multiByte t 5)

/-- W6, header 0xFC: 5 payload bytes (30_encoding R62, R65). -/
def execW6 (t : U64) (s : State) : Host.Outcome State Fault Refusal :=
  .next (s.multiByte t 6)

/-- W7, header 0xFD: 6 payload bytes (30_encoding R62, R65). -/
def execW7 (t : U64) (s : State) : Host.Outcome State Fault Refusal :=
  .next (s.multiByte t 7)

/-- W8, header 0xFE: 7 payload bytes (30_encoding R62, R65). -/
def execW8 (t : U64) (s : State) : Host.Outcome State Fault Refusal :=
  .next (s.multiByte t 8)

/-- W9, header 0xFF: 8 payload bytes (30_encoding R62, R65, R69). -/
def execW9 (t : U64) (s : State) : Host.Outcome State Fault Refusal :=
  .next (s.multiByte t 9)

end Sys2Proof.Machine
end

