-- ==== Sys2Proof/Machine/Dispatch.lean ====
section
/-! DEFINITION. One arm per constructor of Instr, each one call of that instruction's meaning. -/

namespace Sys2Proof.Machine

def exec (i : Instr) (s : State) : Host.Outcome State Fault Refusal :=
  match i with
  | .esize => Sys2Proof.Machine.execEsize s
  | .enc => Sys2Proof.Machine.execEnc s
  | .dsize => Sys2Proof.Machine.execDsize s
  | .dec => Sys2Proof.Machine.execDec s
  | .zzenc => Sys2Proof.Machine.execZzenc s
  | .zzdec => Sys2Proof.Machine.execZzdec s
  | .w1a v => Sys2Proof.Machine.execW1a v s
  | .w1b v => Sys2Proof.Machine.execW1b v s
  | .w1c v => Sys2Proof.Machine.execW1c v s
  | .w1d v => Sys2Proof.Machine.execW1d v s
  | .w1e v => Sys2Proof.Machine.execW1e v s
  | .w2 t => Sys2Proof.Machine.execW2 t s
  | .w3 t => Sys2Proof.Machine.execW3 t s
  | .w4 t => Sys2Proof.Machine.execW4 t s
  | .w5 t => Sys2Proof.Machine.execW5 t s
  | .w6 t => Sys2Proof.Machine.execW6 t s
  | .w7 t => Sys2Proof.Machine.execW7 t s
  | .w8 t => Sys2Proof.Machine.execW8 t s
  | .w9 t => Sys2Proof.Machine.execW9 t s

end Sys2Proof.Machine
end

