-- ==== Sys2Proof/Machine/Step.lean ====
section
/-! DEFINITION. One step: the unit serves the oldest request not yet served, one operation, one atomic transition
(00_scope R12, 20_memory R50, R53). The unit has no program counter (10_state R21); an instruction is fetched from the
caller's requests (log 1). -/

namespace Sys2Proof.Machine

/-- Serve one request. With none to serve the unit does nothing (log 1); a request that names no operation is refused
(10_state R33). -/
def step (s : State) : Host.Outcome State Fault Refusal :=
  match s.present? with
  | none => .next s
  | some t =>
    match decodeSelect t.req.op with
    | .error _ => .refused (.unassignedSelect t.req.op)
    | .ok i => exec i t

/-- `s` with a table word where the next request is fetched (logs 1, 7, 8). -/
def State.withFetchWord (s : State) (nbits w : Nat) : State := s.place (tableCode nbits w)

end Sys2Proof.Machine
end

