-- ==== Sys2Proof/Machine/Port.lean ====
section
/-! DEFINITION. The port rendering (10_state section 3, R27 to R33): the unit as a function from request signals to
response signals. It adds no behaviour; the abstract level is the normative one (92_eei_decisions D2; log 11). A
consumer's view of a response is `Response.signals`; here the inputs are signals too. -/

namespace Sys2Proof.Machine

open Config

/-- The request signals (10_state R27). `len` is below 2^LENW (`PortIn.fits`); `din` holds the first nine bytes of a
source buffer. -/
structure PortIn where
  op : BitVec 3
  a : BitVec 64
  hdr : Byte
  len : Nat
  din : Vector Byte 9
  deriving DecidableEq, Repr

/-- The length is one the `len` signal can hold (10_state R27). -/
def PortIn.fits (p : PortIn) : Prop := p.len < 2 ^ lenw

/-- Lane `i` of `din`. DEC reads no lane at 9 or above: an encoding has at most nine bytes (00_scope R8). -/
def PortIn.byte (p : PortIn) (i : Nat) : Byte := (p.din[i]?).getD 0

/-- The result of ENC and the bytes it stores (41_encoder R100, R101, R102). -/
def encReply (v : U64) (len : Nat) : Result × List Byte :=
  match Codec.enc v len with
  | .error e => (.failure e, [])
  | .ok bytes => (.written bytes.length, bytes)

/-- The result of DEC (43_decoder R130). -/
def decResult : Except Err (U64 × Nat) → Result
  | .error e => .failure e
  | .ok (v, n) => .decoded v n

/-- The result and the stored bytes of a request at the signals; none for select codes 6 and 7 (10_state R33). -/
def PortIn.reply (p : PortIn) : Option (Result × List Byte) :=
  match p.op.toNat with
  | 0 => some (.size (Codec.esize p.a), [])
  | 1 => some (encReply p.a p.len)
  | 2 => some (.size (Codec.dsize p.hdr), [])
  | 3 => some (decResult (Codec.dec p.len p.byte), [])
  | 4 => some (.unsigned (Codec.zzenc p.a), [])
  | 5 => some (.signed (Codec.zzdec p.a), [])
  | _ => none

/-- The response signals, with free values numbered `draw`; none for select codes 6 and 7. -/
def PortIn.respond (p : PortIn) (draw : Nat) : Option Signals :=
  p.reply.map fun x => ({ result := x.1, stored := x.2, draw := draw } : Response).signals

/-- The `len` presented for a buffer: its length, or any value from 9 up when the signal cannot hold the length
(10_state R27; log 5). -/
def presentedLen (len draw : Nat) : Nat :=
  if len < 2 ^ lenw then len else 9 + freeLen draw % (2 ^ lenw - 9)

/-- Lane `i` of `din` for a buffer operand: its byte, or a free value where it has none (10_state R27, R32; log 5). -/
def State.presentedByte (s : State) (i : Nat) : Byte :=
  if i < s.bufLen then s.bufByte i else freeDin s.draws i

/-- The request on the request lines, as signals (10_state R27). -/
def State.port (s : State) : PortIn :=
  { op := s.req.op
    a := s.req.a
    hdr := s.req.hdr
    len := presentedLen s.bufLen s.draws
    din := #v[s.presentedByte 0, s.presentedByte 1, s.presentedByte 2, s.presentedByte 3, s.presentedByte 4,
      s.presentedByte 5, s.presentedByte 6, s.presentedByte 7, s.presentedByte 8] }

/-- What the consumer stores: byte `i` of the destination is replaced by lane `i` of `dout` exactly when `we[i]` is 1
(10_state R28, R30). `old` is the destination's byte. -/
def Signals.storedByte (g : Signals) (i : Nat) (old : Byte) : Byte :=
  if g.we.getLsbD i then (g.dout[i]?).getD old else old

end Sys2Proof.Machine
end

