-- ==== Sys2Proof/Machine/Script.lean ====
section
/-! DEFINITION. The caller's script (30_encoding R77, R78): each line as the request it stands for, with buffer views,
and the two macros, which are two requests each. A view, and the choice of the next line by a result, are the caller's
and not operations of the unit. -/

namespace Sys2Proof.Machine

/-- A buffer or a view of one: `len` bytes of the caller's memory from `base` on (30_encoding R77). -/
structure View where
  base : Nat
  len : Nat
  deriving DecidableEq, Repr

/-- `B[i..]`: from index `i` to the end, of length `L - i` (30_encoding R77). For `i > L`, which R77 leaves open, the
length is 0. DESIGN CHOICE; unsafe; log 12. -/
def View.from (b : View) (i : Nat) : View := { base := b.base + i, len := b.len - i }

/-- `B[i..j]`: from index `i` up to but excluding `j`, of length `j - i` (30_encoding R77). R77 leaves bounds outside `B`
open: for `j < i` the length is 0, and for `j > L` the window reaches the caller's bytes past the end of `B`. DESIGN
CHOICE; unsafe; log 12. -/
def View.slice (b : View) (i j : Nat) : View := { base := b.base + i, len := j - i }

/-- `ESIZE v`. -/
def Script.esize (v : U64) : Request := { Request.zero with op := 0, a := v }

/-- `ENC v, B`. -/
def Script.enc (v : U64) (b : View) : Request :=
  { Request.zero with op := 1, a := v, base := b.base, len := b.len }

/-- `DSIZE h`. -/
def Script.dsize (h : Byte) : Request := { Request.zero with op := 2, hdr := h }

/-- `DEC B`. -/
def Script.dec (b : View) : Request := { Request.zero with op := 3, base := b.base, len := b.len }

/-- `ZZENC s`. -/
def Script.zzenc (v : I64) : Request := { Request.zero with op := 4, a := v }

/-- `ZZDEC u`. -/
def Script.zzdec (w : U64) : Request := { Request.zero with op := 5, a := w }

/-- `SENC s, B`: ZZENC, then ENC of its result (30_encoding R78); the caller names the result, which is
`Codec.zzenc s`. -/
def Script.senc (v : I64) (b : View) : List Request :=
  [Script.zzenc v, Script.enc (Codec.zzenc v) b]

/-- The second request of `SDEC B`: after a DEC that succeeded, ZZDEC of its value; after a failure, nothing
(30_encoding R78). -/
def Script.sdecNext (s : State) : List Request :=
  match s.response with
  | some { result := .decoded v _, .. } => [Script.zzdec v]
  | some { result := .size _, .. } | some { result := .written _, .. } | some { result := .unsigned _, .. }
  | some { result := .signed _, .. } | some { result := .failure _, .. } => []
  | none => []

end Sys2Proof.Machine
end

