-- ==== Sys2Proof/Safety.lean ====
section
/-! DEFINITION. The terms claims are stated in: which requests the caller may make, what a coherent response is, the
invariant that every step keeps, and what an operation leaves unchanged. -/

namespace Sys2Proof.Machine

/-- No invocation that is not ordered with this request touches a byte that a successful ENC of it writes (20_memory
R44, R54). -/
def State.encQuiet (s : State) : Prop := s.overlaps (Codec.esize s.value) true = false

/-- No ENC that is not ordered with this request touches a byte that a DEC of it reads (20_memory R44, R54); another
DEC may (R55). -/
def State.decQuiet (s : State) : Prop := s.overlaps (Codec.decTouches s.bufLen s.bufByte) false = false

/-- The result of an operation is in the ranges the spec gives: sizes and counts in 1..9 (10_state R26); a decoded
value is below BASE exactly when one byte was consumed (30_encoding R68). -/
def Result.inRange : Result → Prop
  | .size n | .written n => 1 ≤ n ∧ n ≤ 9
  | .decoded v n => 1 ≤ n ∧ n ≤ 9 ∧ (v.toNat < 248 ↔ n = 1)
  | .unsigned _ | .signed _ | .failure _ => True

/-- A response agrees with itself: its result is in range, it stores as many bytes as ENC reports written, and
nothing for any other result (10_state R28, R30). -/
def Response.coherent (p : Response) : Prop :=
  p.result.inRange ∧
    p.stored.length = match p.result with
      | .written n => n
      | .size _ | .decoded _ _ | .unsigned _ | .signed _ | .failure _ => 0

/-- The invariant of the machine: the caller's memory is in canonical form, the last response is coherent, and its
free values are ones already drawn. -/
def State.Inv (s : State) : Prop :=
  s.mem.wf ∧ ∀ p, s.response = some p → p.coherent ∧ p.draw < s.draws

/-- What every operation leaves unchanged: the request lines and the requests not yet served. -/
def State.sameRequests (s t : State) : Prop := t.req = s.req ∧ t.pending = s.pending

/-- Memory reads as before at every address. -/
def State.sameMemory (s t : State) : Prop := ∀ a, t.mem.read a = s.mem.read a

/-- Memory reads as before outside the first `n` bytes of the buffer operand. -/
def State.sameMemoryOutside (s t : State) (n : Nat) : Prop :=
  ∀ a, a < s.req.base ∨ s.req.base + n ≤ a → t.mem.read a = s.mem.read a

/-- The last response's result is `r`. -/
def State.answered (s : State) (r : Result) : Prop := ∃ p, s.response = some p ∧ p.result = r

/-- From `s` to `t` one response with result `r` was given that stores nothing: the request lines, the requests not
yet served and every byte of memory are as before. -/
def State.repliedOnly (s t : State) (r : Result) : Prop :=
  (∃ p, t.response = some p ∧ p.result = r ∧ p.stored = []) ∧ s.sameRequests t ∧ s.sameMemory t

/-- Two states present the same operands to an instruction: exactly what 45_arithmetic_and_laws R187 names for each
operation, and nothing for a WIRE row, whose operand is its own. Nothing else of the states need agree. -/
def State.sameOperands (i : Instr) (s t : State) : Prop :=
  match i with
  | .esize | .zzdec => t.value = s.value
  | .zzenc => t.signedValue = s.signedValue
  | .enc => t.value = s.value ∧ t.bufLen = s.bufLen
  | .dsize => t.header = s.header
  | .dec => t.bufLen = s.bufLen ∧ ∀ k, k < Codec.decTouches s.bufLen s.bufByte → t.bufByte k = s.bufByte k
  | .w1a _ | .w1b _ | .w1c _ | .w1d _ | .w1e _ => True
  | .w2 _ | .w3 _ | .w4 _ | .w5 _ | .w6 _ | .w7 _ | .w8 _ | .w9 _ => True

/-- The exact big-endian number of a payload: `T = byte[1]*256^(k-1) + ... + byte[k]` (20_memory R47, 30_encoding
R65). -/
def bigEndian : List Byte → Nat
  | [] => 0
  | b :: bs => b.toNat * 256 ^ bs.length + bigEndian bs

/-- The nine bytes the buffer operand would need for an encoding that overflows (43_decoder R135): index 0 and indices 1
to 7 are 0xFF, and index 8 is 0x08 or more. -/
def State.overflowing (s : State) : Prop :=
  9 ≤ s.bufLen ∧ (∀ i, i < 8 → s.bufByte i = 0xFF) ∧ 0x08 ≤ (s.bufByte 8).toNat

/-- The exact trailing number of a source buffer whose encoding has `size` bytes (30_encoding R65). -/
def State.trailingNumber (s : State) (size : Nat) : Nat :=
  bigEndian ((List.range (size - 1)).map fun i => s.bufByte (i + 1))

/-- Two requests that may be served in either order: neither is an ENC, or their buffers have no byte in common, or
one of them has no buffer operand (20_memory R55). -/
def Request.commutesWith (r q : Request) : Prop :=
  (r.op ≠ 1 ∧ q.op ≠ 1) ∨ (r.base + r.len ≤ q.base ∨ q.base + q.len ≤ r.base) ∨
    (r.op ≠ 1 ∧ r.op ≠ 3) ∨ (q.op ≠ 1 ∧ q.op ≠ 3)

/-- A request the caller may make of the unit in any state: its select code names an operation and it shares no bytes
with unordered invocations (30_encoding R75, 20_memory R54). -/
def Request.admitted (r : Request) : Prop := r.op.toNat < 6 ∧ r.concurrent = []

end Sys2Proof.Machine
end

