-- ==== Sys2Proof/Certificates/Slice0/Obligations.lean ====
section
/-! DEFINITION. The statements for the provers. Each docstring names the rule or section of the spec it formalises. -/

open Sys2Proof Sys2Proof.Machine

/-! ### Tables of the spec the statements use -/

/-- 30_encoding R67: size, header (of sizes 2 to 9), smallest and largest value, smallest and largest `t`. -/
def Sys2Proof.Claims.sizeTable : List (Nat × Nat × Nat × Nat × Nat × Nat) :=
  [(1, 0, 0, 247, 0, 0),
   (2, 0xF8, 248, 503, 0x00, 0xFF),
   (3, 0xF9, 504, 65783, 0x0100, 0xFFFF),
   (4, 0xFA, 65784, 16777463, 0x010000, 0xFFFFFF),
   (5, 0xFB, 16777464, 4294967543, 0x01000000, 0xFFFFFFFF)] ++
  [(6, 0xFC, 4294967544, 1099511628023, 0x0100000000, 0xFFFFFFFFFF),
   (7, 0xFD, 1099511628024, 281474976710903, 0x010000000000, 0xFFFFFFFFFFFF),
   (8, 0xFE, 281474976710904, 72057594037928183, 0x01000000000000, 0xFFFFFFFFFFFFFF),
   (9, 0xFF, 72057594037928184, 18446744073709551615, 0x0100000000000000, 0xFFFFFFFFFFFFFF07)]

/-- 45_arithmetic_and_laws R186: size, and the inclusive ranges of nonnegative and of negative signed values. -/
def Sys2Proof.Claims.signedTable : List (Nat × (Int × Int) × (Int × Int)) :=
  [(1, (0, 123), (-124, -1)),
   (2, (124, 251), (-252, -125)),
   (3, (252, 32891), (-32892, -253)),
   (4, (32892, 8388731), (-8388732, -32893)),
   (5, (8388732, 2147483771), (-2147483772, -8388733))] ++
  [(6, (2147483772, 549755814011), (-549755814012, -2147483773)),
   (7, (549755814012, 140737488355451), (-140737488355452, -549755814013)),
   (8, (140737488355452, 36028797018964091), (-36028797018964092, -140737488355453)),
   (9, (36028797018964092, 2 ^ 63 - 1), (-2 ^ 63, -36028797018964093))]

/-- The WIRE rows of the opcode table whose mask and pattern a header byte matches (30_encoding R79). -/
def Sys2Proof.Claims.wireRowsOf (h : Byte) : List (Nat × Nat) :=
  wireTable.filter fun r => h.toNat &&& r.1 == r.2

/-! ### ESIZE and DSIZE -/

/-- R90 (its list of thresholds, as numerals): ESIZE completes in every state and answers the size. -/
def Obligations.EsizeAnswersThresholdSize : Prop :=
  ∀ s : State, ∃ t, exec .esize s = .next t ∧
    s.repliedOnly t (.size (
      if s.value.toNat < 248 then 1
      else if s.value.toNat ≤ 503 then 2
      else if s.value.toNat ≤ 65783 then 3
      else if s.value.toNat ≤ 16777463 then 4
      else if s.value.toNat ≤ 4294967543 then 5
      else if s.value.toNat ≤ 1099511628023 then 6
      else if s.value.toNat ≤ 281474976710903 then 7
      else if s.value.toNat ≤ 72057594037928183 then 8
      else 9))

/-- R67: ESIZE answers a row's size exactly on the row's values; ENC's encoding of such a value has the row's header
and a trailing value in the row's range, and the bounds are those of the smallest and the largest value. -/
def Obligations.SizeRangeTable : Prop :=
  ∀ (s t : State), exec .esize s = .next t →
    ∀ size header lo hi tlo thi, (size, header, lo, hi, tlo, thi) ∈ Claims.sizeTable →
      (t.answered (.size size) ↔ lo ≤ s.value.toNat ∧ s.value.toNat ≤ hi) ∧
      (2 ≤ size → lo - 248 = tlo ∧ hi - 248 = thi) ∧
      (2 ≤ size → t.answered (.size size) →
        ((Codec.encoding s.value).headD 0).toNat = header ∧
        tlo ≤ s.value.toNat - 248 ∧ s.value.toNat - 248 ≤ thi) ∧
      (size = 1 → t.answered (.size size) → ((Codec.encoding s.value).headD 0).toNat = s.value.toNat)

/-- R93: the encoded size is monotonic. -/
def Obligations.EsizeMonotone : Prop :=
  ∀ (s s' t t' : State) (m n : Nat), exec .esize s = .next t → exec .esize s' = .next t' →
    t.answered (.size m) → t'.answered (.size n) → s.value.toNat ≤ s'.value.toNat → m ≤ n

/-- R95: size 1 exactly below BASE. -/
def Obligations.SizeOneExactlyBelowBase : Prop :=
  ∀ s t : State, exec .esize s = .next t → (t.answered (.size 1) ↔ s.value.toNat < 0xF8)

/-- R92: the closed form with the case `t = 0`, its equivalent by digit count, and the cap that never binds. -/
def Obligations.EsizeClosedForm : Prop :=
  ∀ v : U64, 248 ≤ v.toNat →
    (v.toNat - 248 = 0 → Codec.esize v = 2) ∧
    (1 ≤ v.toNat - 248 → Codec.esize v = 2 + Nat.log 256 (v.toNat - 248)) ∧
    Codec.esize v = 1 + max 1 (Nat.digits 256 (v.toNat - 248)).length ∧
    Nat.log 256 (v.toNat - 248) ≤ 7

/-- R122, with R120's two lines: DSIZE completes in every state; the header is at or above BASE exactly when its bits
7..3 are all 1, and then the size is its bits 2..0 plus 2. -/
def Obligations.DsizeAnswersFromHeaderBits : Prop :=
  ∀ s : State,
    (248 ≤ s.header.toNat ↔ s.header.extractLsb' 3 5 = 0b11111#5) ∧
    (248 ≤ s.header.toNat → s.header.toNat - 248 ≤ 7 ∧ s.header.toNat - 248 + 2 < 2 ^ 4) ∧
    ∃ t, exec .dsize s = .next t ∧
      s.repliedOnly t (.size (
        if s.header.extractLsb' 3 5 = 0b11111#5 then (s.header.extractLsb' 0 3).toNat + 2 else 1)) ∧
      s.repliedOnly t (.size (if s.header.toNat < 248 then 1 else s.header.toNat - 248 + 2))

/-- R121: DSIZE depends on the header alone, and the number of bytes still to read is its answer less one. -/
def Obligations.DsizeDependsOnHeaderAlone : Prop :=
  ∀ (s s' t t' : State) (m n : Nat), s'.header = s.header → exec .dsize s = .next t → exec .dsize s' = .next t' →
    t.answered (.size m) → t'.answered (.size n) →
    m = n ∧ m - 1 = if s.header.toNat < 0xF8 then 0 else s.header.toNat - 0xF8 + 1

/-- R63 and the WIRE rows of R79: every header byte is in exactly one row, the decoder takes that row when the payload
is there, and the row's size is DSIZE's. -/
def Obligations.EveryHeaderHasOneRow : Prop :=
  ∀ (h : Byte) (payload : List Byte), payload.length = payloadCount h →
    (Claims.wireRowsOf h).length = 1 ∧
    ∃ i, decodeWire (h :: payload) = .ok (i, []) ∧
      (i.row.2.1, i.row.2.2) ∈ Claims.wireRowsOf h ∧ i.row.1 = true ∧
      i.wireSize = Codec.dsize h ∧ payloadCount h = Codec.dsize h - 1

/-! ### ENC -/

/-- R66 and R102: where ENC completes, what it writes at every index below the size (it stores that many bytes, none
skipped), what it answers, and that every byte outside those is as before. The conditions: the destination is long
enough, and no unordered invocation touches a byte it writes. -/
def Obligations.EncWritesTheEncoding : Prop :=
  ∀ s : State, s.mem.wf → s.encQuiet → Codec.esize s.value ≤ s.bufLen →
    ∃ t p, exec .enc s = .next t ∧ t.response = some p ∧ p.result = .written (Codec.esize s.value) ∧
      p.stored.length = Codec.esize s.value ∧ s.sameRequests t ∧
      (s.value.toNat < 248 → Codec.esize s.value = 1 ∧ (t.bufByte 0).toNat = s.value.toNat) ∧
      (248 ≤ s.value.toNat →
        (t.bufByte 0).toNat = 248 + (Codec.esize s.value - 2) ∧
        ∀ i, 1 ≤ i → i ≤ Codec.esize s.value - 1 →
          (t.bufByte i).toNat = (s.value.toNat - 248) / 256 ^ (Codec.esize s.value - 1 - i) % 256) ∧
      s.sameMemoryOutside t (Codec.esize s.value)

/-- R101 and R109: ENC fails with InsufficientBuffer for every shorter length, writing nothing and driving no write
enable, and succeeds for every other length. -/
def Obligations.EncFailsExactlyWhenShort : Prop :=
  ∀ s : State,
    (s.bufLen < Codec.esize s.value →
      ∃ t, exec .enc s = .next t ∧ s.repliedOnly t (.failure .insufficientBuffer) ∧
        ∀ p, t.response = some p → p.signals.we = 0) ∧
    (Codec.esize s.value ≤ s.bufLen → s.encQuiet →
      ∃ t, exec .enc s = .next t ∧ t.answered (.written (Codec.esize s.value)))

/-- R107: ENC's result and the bytes it writes depend on the value and on the comparison of the length with the size,
and on nothing else: not on what the destination held. -/
def Obligations.EncNeverReadsDestination : Prop :=
  ∀ s s' t t' : State, s'.value = s.value →
    (s.bufLen < Codec.esize s.value ↔ s'.bufLen < Codec.esize s'.value) →
    exec .enc s = .next t → exec .enc s' = .next t' →
    ∃ p p', t.response = some p ∧ t'.response = some p' ∧ p'.result = p.result ∧ p'.stored = p.stored

/-- R103: the single-byte path. -/
def Obligations.EncSingleByteWritesTheValue : Prop :=
  ∀ s : State, s.mem.wf → s.encQuiet → s.value.toNat < 0xF8 → 1 ≤ s.bufLen →
    Codec.esize s.value = 1 ∧
    ∃ t p, exec .enc s = .next t ∧ t.response = some p ∧ p.result = .written 1 ∧
      p.stored = [s.value.setWidth 8] ∧ (t.bufByte 0).toNat = s.value.toNat ∧ s.sameMemoryOutside t 1

/-- R104 and R182: the header depends on the value only through the size, and DSIZE of the first byte ENC writes is
the size. -/
def Obligations.HeaderGivesBackTheSize : Prop :=
  ∀ (s t : State) (n : Nat), s.mem.wf → exec .enc s = .next t → t.answered (.written n) →
    n = Codec.esize s.value ∧ Codec.dsize (t.bufByte 0) = n ∧
    (2 ≤ n → (t.bufByte 0).toNat = 0xF8 + (n - 2))

/-- R105 and R94: the payload has exactly `size - 1` bytes, 0 to 8, and loses no bit of `t`, which fits that width and
no narrower one but at 248; it begins with a zero byte only in the encoding of 248. -/
def Obligations.PayloadIsFixedWidth : Prop :=
  ∀ v : U64,
    (Codec.encoding v).tail.length = Codec.esize v - 1 ∧ Codec.esize v - 1 ≤ 8 ∧
    (248 ≤ v.toNat →
      v.toNat - 248 < 256 ^ (Codec.esize v - 1) ∧
      (2 ≤ Codec.esize v - 1 → 256 ^ (Codec.esize v - 2) ≤ v.toNat - 248) ∧
      bigEndian (Codec.encoding v).tail = v.toNat - 248 ∧
      ((Codec.encoding v).tail.headD 1 = 0 ↔ v.toNat = 248))

/-- R108: the bytes ENC writes decode to the value, and no byte sequence that DEC decodes to the value is consumed in
fewer bytes. -/
def Obligations.EncodingIsShortest : Prop :=
  ∀ v : U64, Codec.decBuffer (Codec.encoding v) = .ok (v, (Codec.encoding v).length) ∧
    ∀ (b : List Byte) (n : Nat), Codec.decBuffer b = .ok (v, n) → (Codec.encoding v).length ≤ n

/-- R49: a second ENC of the same request rewrites the same bytes with the same values and answers the same; DEC
changes no byte, and a second one answers the same. -/
def Obligations.RepeatingChangesNothing : Prop :=
  (∀ s t u : State, s.mem.wf → exec .enc s = .next t → exec .enc t = .next u →
    u.mem = t.mem ∧ ∀ r, t.answered r → u.answered r) ∧
  (∀ s t u : State, exec .dec s = .next t → exec .dec t = .next u →
    t.mem = s.mem ∧ u.mem = s.mem ∧ ∀ r, t.answered r → u.answered r)

/-- R54: ENC that would write a byte an unordered invocation touches, and DEC that would read a byte an unordered ENC
touches, are refused, and in no other case. -/
def Obligations.UnserializedOverlapRefused : Prop :=
  ∀ s : State,
    (Codec.esize s.value ≤ s.bufLen →
      (exec .enc s = .refused .unserializedOverlap ↔
        ∃ e ∈ s.req.concurrent, ∃ a, s.req.base ≤ a ∧ a < s.req.base + Codec.esize s.value ∧
          e.base ≤ a ∧ a < e.base + e.len)) ∧
    (exec .dec s = .refused .unserializedOverlap ↔
      ∃ e ∈ s.req.concurrent, e.writes = true ∧
        ∃ a, s.req.base ≤ a ∧ a < s.req.base + Codec.decTouches s.bufLen s.bufByte ∧
          e.base ≤ a ∧ a < e.base + e.len)

/-! ### DEC -/

/-- R131: the empty buffer is a defined failure. -/
def Obligations.DecEmptyBuffer : Prop :=
  ∀ s : State, s.bufLen = 0 → ∃ t, exec .dec s = .next t ∧ s.repliedOnly t (.failure .insufficientBuffer)

/-- R132: a source shorter than its header requires fails, whatever bytes follow byte 0. -/
def Obligations.DecShortBuffer : Prop :=
  ∀ s : State, s.decQuiet → 1 ≤ s.bufLen → s.bufLen < Codec.dsize (s.bufByte 0) →
    ∃ t, exec .dec s = .next t ∧ s.repliedOnly t (.failure .insufficientBuffer)

/-- R133: the single-byte path. -/
def Obligations.DecSingleByte : Prop :=
  ∀ s : State, s.decQuiet → 1 ≤ s.bufLen → (s.bufByte 0).toNat < 248 →
    ∃ t, exec .dec s = .next t ∧ s.repliedOnly t (.decoded ((s.bufByte 0).setWidth 64) 1) ∧
      ((s.bufByte 0).setWidth 64).toNat ≤ 247

/-- R65 and R134: the value of a multi-byte encoding is its trailing number plus 248, exactly; a trailing number above
the bound, possible only with eight payload bytes, gives Overflow. -/
def Obligations.DecMultiByte : Prop :=
  ∀ (s : State) (size : Nat), s.decQuiet → size = Codec.dsize (s.bufByte 0) → 2 ≤ size → size ≤ s.bufLen →
    (s.trailingNumber size ≤ 0xFFFFFFFFFFFFFF07 →
      ∃ t v, exec .dec s = .next t ∧ s.repliedOnly t (.decoded v size) ∧
        v.toNat = s.trailingNumber size + 0xF8) ∧
    (0xFFFFFFFFFFFFFF07 < s.trailingNumber size →
      size = 9 ∧ ∃ t, exec .dec s = .next t ∧ s.repliedOnly t (.failure .overflow))

/-- R135: the set of inputs that DEC answers with Overflow. -/
def Obligations.OverflowSet : Prop :=
  ∀ s t : State, exec .dec s = .next t → (t.answered (.failure .overflow) ↔ s.overflowing)

/-- R69 and R138: the failures of DEC are exactly these, tested in this order; a source that is too short is never
reported as Overflow. -/
def Obligations.DecFailuresInOrder : Prop :=
  ∀ s t : State, exec .dec s = .next t →
    (t.answered (.failure .insufficientBuffer) ↔ s.bufLen = 0 ∨ s.bufLen < Codec.dsize (s.bufByte 0)) ∧
    (t.answered (.failure .overflow) ↔
      9 ≤ s.bufLen ∧ s.bufByte 0 = 0xFF ∧ 0xFFFFFFFFFFFFFF07 < s.trailingNumber 9) ∧
    (s.bufLen = 0 ∨ s.bufLen < Codec.dsize (s.bufByte 0) → ¬ t.answered (.failure .overflow))

/-- R139: any trailing value in any payload wide enough for it decodes to that value plus 248 and consumes the whole
encoding, whether or not a shorter encoding exists. -/
def Obligations.NonMinimalAccepted : Prop :=
  ∀ (s : State) (size : Nat) (x : U64), s.decQuiet → 2 ≤ size → size ≤ 9 → x.toNat < 256 ^ (size - 1) →
    x.toNat ≤ 0xFFFFFFFFFFFFFF07 → size ≤ s.bufLen →
    (∀ i, i < size → s.bufByte i = (multiBytes size x).getD i 0) →
    ∃ t v, exec .dec s = .next t ∧ s.repliedOnly t (.decoded v size) ∧ v.toNat = x.toNat + 248

/-- R68: the values each header decodes to. -/
def Obligations.ValuesOfEachHeader : Prop :=
  (∀ (h : Byte) (payload : List Byte) (v : U64) (n : Nat), Codec.decBuffer (h :: payload) = .ok (v, n) →
    (h.toNat < 248 → v.toNat = h.toNat) ∧
    (248 ≤ h.toNat → 248 ≤ v.toNat) ∧
    (248 ≤ h.toNat → h.toNat < 255 → v.toNat ≤ 248 + 256 ^ (Codec.dsize h - 1) - 1)) ∧
  (∀ (h : Byte) (v : U64), 248 ≤ h.toNat → 248 ≤ v.toNat →
    (h.toNat < 255 → v.toNat ≤ 248 + 256 ^ (Codec.dsize h - 1) - 1) →
    ∃ payload : List Byte, Codec.decBuffer (h :: payload) = .ok (v, Codec.dsize h)) ∧
  (∀ (b b' : List Byte) (v : U64) (n n' : Nat), v.toNat ≤ 247 → Codec.decBuffer b = .ok (v, n) →
    Codec.decBuffer b' = .ok (v, n') → b.take n = b'.take n')

/-- R183: suffix independence. -/
def Obligations.DecIgnoresTheSuffix : Prop :=
  ∀ (s s' t : State) (v : U64) (n : Nat), exec .dec s = .next t → t.answered (.decoded v n) → s'.decQuiet →
    (n ≤ s'.bufLen → (∀ i, i < n → s'.bufByte i = s.bufByte i) →
      ∃ t', exec .dec s' = .next t' ∧ t'.answered (.decoded v n)) ∧
    (s'.bufLen < n → s'.bufByte 0 = s.bufByte 0 →
      ∃ t', exec .dec s' = .next t' ∧ t'.answered (.failure .insufficientBuffer))

/-! ### ZZENC and ZZDEC -/

/-- R152: ZZENC completes in every state; its number is `2v` or `-2v - 1`, and its bits are the shifted bits, each
exclusive-or the sign. -/
def Obligations.ZzencNumber : Prop :=
  ∀ s : State, ∃ t w, exec .zzenc s = .next t ∧ s.repliedOnly t (.unsigned w) ∧
    (0 ≤ s.signedValue.toInt → (w.toNat : Int) = 2 * s.signedValue.toInt) ∧
    (s.signedValue.toInt < 0 → (w.toNat : Int) = -2 * s.signedValue.toInt - 1) ∧
    w = (s.signedValue <<< 1) ^^^ (if s.signedValue.msb then BitVec.allOnes 64 else 0)

/-- R156: ZZDEC completes in every state; its number is half of an even operand, and minus half of one more than an odd
one; parity decides the sign. -/
def Obligations.ZzdecNumber : Prop :=
  ∀ s : State, ∃ t v, exec .zzdec s = .next t ∧ s.repliedOnly t (.signed v) ∧
    (s.value.toNat % 2 = 0 → v.toInt = s.value.toNat / 2) ∧
    (s.value.toNat % 2 = 1 → 2 * v.toInt = -(s.value.toNat + 1) ∧ v.toInt = -(s.value.toNat / 2 : Nat) - 1) ∧
    (0 ≤ v.toInt ↔ s.value.toNat % 2 = 0)

/-- R157: the two are exact inverses, in both directions. -/
def Obligations.SignTransformInverse : Prop :=
  (∀ (s t s' t' : State) (w : U64), exec .zzenc s = .next t → t.answered (.unsigned w) → s'.value = w →
    exec .zzdec s' = .next t' → t'.answered (.signed s.signedValue)) ∧
  (∀ (s t s' t' : State) (v : I64), exec .zzdec s = .next t → t.answered (.signed v) → s'.signedValue = v →
    exec .zzenc s' = .next t' → t'.answered (.unsigned s.value))

/-- R158: small signed values map to small unsigned ones, which take one byte. -/
def Obligations.SmallSignedTakesOneByte : Prop :=
  (∀ v : I64, -124 ≤ v.toInt → v.toInt ≤ 123 →
    (Codec.zzenc v).toNat < 248 ∧ Codec.esize (Codec.zzenc v) = 1) ∧
  [0, -1, 1, -2, 2].map (fun n => (Codec.zzenc (BitVec.ofInt 64 n)).toNat) = [0, 1, 2, 3, 4]

/-! ### The WIRE rows -/

/-- R64, for rows W1a to W1e: in every state the row answers its header's value and one byte consumed. -/
def Obligations.SingleByteRows : Prop :=
  ∀ (s : State) (b : Byte),
    (∃ t, exec (.w1a b) s = .next t ∧ s.repliedOnly t (.decoded (b.setWidth 64) 1)) ∧
    (∃ t, exec (.w1b b) s = .next t ∧ s.repliedOnly t (.decoded (b.setWidth 64) 1)) ∧
    (∃ t, exec (.w1c b) s = .next t ∧ s.repliedOnly t (.decoded (b.setWidth 64) 1)) ∧
    (∃ t, exec (.w1d b) s = .next t ∧ s.repliedOnly t (.decoded (b.setWidth 64) 1)) ∧
    (∃ t, exec (.w1e b) s = .next t ∧ s.repliedOnly t (.decoded (b.setWidth 64) 1)) ∧
    (b.setWidth 64).toNat = b.toNat

/-- R65, for rows W2 to W9: in every state, with a trailing value up to the bound, the row answers that value plus 248
and its size as bytes consumed. A well-formed W2 to W8 always meets the bound. -/
def Obligations.MultiByteRows : Prop :=
  ∀ (s : State) (x : U64), x.toNat ≤ 0xFFFFFFFFFFFFFF07 →
    ∃ v : U64, v.toNat = x.toNat + 248 ∧
      (∃ t, exec (.w2 x) s = .next t ∧ s.repliedOnly t (.decoded v 2)) ∧
      (∃ t, exec (.w3 x) s = .next t ∧ s.repliedOnly t (.decoded v 3)) ∧
      (∃ t, exec (.w4 x) s = .next t ∧ s.repliedOnly t (.decoded v 4)) ∧
      (∃ t, exec (.w5 x) s = .next t ∧ s.repliedOnly t (.decoded v 5)) ∧
      (∃ t, exec (.w6 x) s = .next t ∧ s.repliedOnly t (.decoded v 6)) ∧
      (∃ t, exec (.w7 x) s = .next t ∧ s.repliedOnly t (.decoded v 7)) ∧
      (∃ t, exec (.w8 x) s = .next t ∧ s.repliedOnly t (.decoded v 8)) ∧
      (∃ t, exec (.w9 x) s = .next t ∧ s.repliedOnly t (.decoded v 9))

/-- R134 and R135, for row W9: a trailing value above the bound answers Overflow; no well-formed row of fewer bytes
has one. -/
def Obligations.OnlyRowW9Overflows : Prop :=
  (∀ (s : State) (x : U64), 0xFFFFFFFFFFFFFF07 < x.toNat →
    ∃ t, exec (.w9 x) s = .next t ∧ s.repliedOnly t (.failure .overflow)) ∧
  (∀ (i : Instr) (s t : State), i.wellFormed → 1 ≤ i.wireSize → exec i s = .next t →
    t.answered (.failure .overflow) → ∃ x, i = .w9 x)

/-- R130 with R62 and R63: DEC of a source that holds a whole encoding does what the row of that encoding does. -/
def Obligations.DecRunsTheRowOfItsSource : Prop :=
  ∀ (s : State) (i : Instr) (rest : List Byte), s.decQuiet → decodeWire s.buffer = .ok (i, rest) →
    exec .dec s = exec i s

/-- R69: DEC answers InsufficientBuffer exactly when its source holds no whole encoding. -/
def Obligations.DecInsufficientExactlyWhenUndecodable : Prop :=
  ∀ s t : State, exec .dec s = .next t →
    (t.answered (.failure .insufficientBuffer) ↔ ∃ e, decodeWire s.buffer = .error e)

/-! ### Encodings -/

/-- R62, R75: every well-formed instruction is decoded from its own code, and a WIRE row from the front of any byte
sequence that its encoding begins. -/
def Obligations.DecodeOfEncode : Prop :=
  ∀ i : Instr, i.wellFormed →
    decode (encode i) = .ok i ∧
    (1 ≤ i.wireSize → ∀ rest, decodeWire ((encode i).bytes ++ rest) = .ok (i, rest))

/-- R62, R71: what the decoder reads is well-formed, and is the encoding of what it reads: no byte of the input is
dropped or changed. -/
def Obligations.EncodeOfDecode : Prop :=
  (∀ (bytes rest : List Byte) (i : Instr), decodeWire bytes = .ok (i, rest) →
    i.wellFormed = true ∧ 1 ≤ i.wireSize ∧ bytes = (encode i).bytes ++ rest) ∧
  (∀ (op : BitVec 3) (i : Instr), decodeSelect op = .ok i → i.wellFormed = true ∧ encode i = .select op)

/-- 30_encoding sections 1 and 4, 95_test_vectors 2.4: some words written out from the spec decode to the instruction
they stand for. -/
def Obligations.SpecWordsDecode : Prop :=
  decode (.select 0b011#3) = .ok .dec ∧
  decode (.select 0b001#3) = .ok .enc ∧
  decode (.select 0b100#3) = .ok .zzenc ∧
  decode (.wire [0b01100100]) = .ok (.w1a 100) ∧
  decode (.wire [0b11110111]) = .ok (.w1e 247) ∧
  decode (.wire [0b11111001, 0x01, 0x23]) = .ok (.w3 0x0123) ∧
  decode (.wire [0b11111011, 0x12, 0x34, 0x56, 0x78]) = .ok (.w5 0x12345678) ∧
  decode (.wire [0b11111111, 0xFF, 0xFF, 0xFF, 0xFF, 0xFF, 0xFF, 0xFF, 0x07]) = .ok (.w9 0xFFFFFFFFFFFFFF07)

/-- R184: encodings laid end to end are read back as they were laid, and no encoding is a proper prefix of another. -/
def Obligations.ConcatenationParsesUniquely : Prop :=
  (∀ is : List Instr, (∀ i ∈ is, i.wellFormed = true ∧ 1 ≤ i.wireSize) →
    decodeStream is.length (is.flatMap fun i => (encode i).bytes) = .ok is) ∧
  (∀ i j : Instr, i.wellFormed → j.wellFormed → 1 ≤ i.wireSize → 1 ≤ j.wireSize →
    (encode i).bytes <+: (encode j).bytes → i = j)

/-! ### The machine -/

/-- 20_memory R53 (issue order), and the model's choice, log 1: a step puts the oldest request on the request lines and
runs the instruction its select code names; with no request to serve it changes nothing. Everything around exec is
named here. -/
def Obligations.StepRunsTheOldestRequest : Prop :=
  (∀ (s : State) (r : Request) (rest : List Request) (i : Instr), s.pending = r :: rest →
    decodeSelect r.op = .ok i → step s = exec i { s with req := r, pending := rest }) ∧
  (∀ s : State, s.pending = [] → step s = .next s)

/-- R76 and R33: select codes 6 and 7 are refused by name. -/
def Obligations.UnassignedSelectRefused : Prop :=
  ∀ (s : State) (r : Request) (rest : List Request), s.pending = r :: rest → r.op = 6 ∨ r.op = 7 →
    step s = .refused (.unassignedSelect r.op)

/-- 60_exceptions section 1, R248: the only steps without an answer are those of requests the caller may not make. -/
def Obligations.StepRefusesOnlyInadmissible : Prop :=
  ∀ (s : State) (why : Refusal), step s = .refused why →
    ∃ r rest, s.pending = r :: rest ∧
      ((6 ≤ r.op.toNat ∧ why = .unassignedSelect r.op) ∨
        ((r.op = 1 ∨ r.op = 3) ∧ r.concurrent ≠ [] ∧ why = .unserializedOverlap))

/-- R248, first row: every operation, with any operands, at any time, is answered. -/
def Obligations.StepAnswersAdmitted : Prop :=
  ∀ (s : State) (r : Request) (rest : List Request), s.pending = r :: rest → r.admitted →
    ∃ t, step s = .next t ∧ t.response.isSome ∧ t.pending = rest ∧ t.req = r

/-- R25, R43, R102: what every instruction leaves unchanged. Only ENC changes memory, and only in the bytes it reports
written, from index 0 of its destination on. -/
def Obligations.FrameOfEveryInstruction : Prop :=
  ∀ (i : Instr) (s t : State), s.mem.wf → exec i s = .next t →
    s.sameRequests t ∧
    (i ≠ .enc → s.sameMemory t) ∧
    (∀ n, t.answered (.written n) → i = .enc ∧ s.sameMemoryOutside t n) ∧
    ((∀ n, ¬ t.answered (.written n)) → s.sameMemory t)

/-- 10_state R26, R28 and the memory's canonical form: a step from any state that meets the invariant gives a state
that meets it. -/
def Obligations.StepKeepsInvariant : Prop :=
  ∀ s t : State, s.Inv → step s = .next t → t.Inv

/-- The same for every well-formed instruction, the WIRE rows among them. -/
def Obligations.ExecKeepsInvariant : Prop :=
  ∀ (i : Instr) (s t : State), i.wellFormed → s.Inv → exec i s = .next t → t.Inv

/-- The invariant holds right after reset (10_state R35). -/
def Obligations.ResetMeetsInvariant : Prop := State.reset.Inv

/-- R35 and R231: right after reset there is no response and no request, and the first operation issued answers as it
would in any other state with the same operands. The empty memory and the request lines are the model's choice (logs 2
and 3). -/
def Obligations.FirstOperationIsLikeAnyOther : Prop :=
  State.reset.response = none ∧ State.reset.pending = [] ∧
  ∀ (r : Request) (s t t' : State) (q : Result), s.mem = [] → s.pending = [] →
    step (State.reset.issue r) = .next t → step (s.issue r) = .next t' →
    t.answered q → t'.answered q

/-- R187: an operation's result and the bytes it stores depend on its operands alone: not on where the buffer
lies (R41), on earlier responses, on requests still waiting, or on anything else in the state. -/
def Obligations.AnswerDependsOnOperandsAlone : Prop :=
  ∀ (i : Instr) (s s' t t' : State), State.sameOperands i s s' → exec i s = .next t → exec i s' = .next t' →
    ∃ p p', t.response = some p ∧ t'.response = some p' ∧ p'.result = p.result ∧ p'.stored = p.stored

/-- R203: which operation reports which error. -/
def Obligations.WhoReportsWhichError : Prop :=
  ∀ (i : Instr) (s t : State), i.wireSize = 0 → exec i s = .next t →
    (t.answered (.failure .insufficientBuffer) ↔
      (i = .enc ∧ s.bufLen < Codec.esize s.value) ∨
      (i = .dec ∧ (s.bufLen = 0 ∨ s.bufLen < Codec.dsize (s.bufByte 0)))) ∧
    (t.answered (.failure .overflow) ↔
      i = .dec ∧ Codec.dsize (s.bufByte 0) ≤ s.bufLen ∧ 2 ≤ Codec.dsize (s.bufByte 0) ∧
        0xFFFFFFFFFFFFFF07 < s.trailingNumber (Codec.dsize (s.bufByte 0)))

/-- R55: two requests that may be served in either order give the same answers and leave the same memory. -/
def Obligations.DisjointRequestsCommute : Prop :=
  ∀ (s : State) (r q : Request) (rest : List Request), s.mem.wf → r.admitted → q.admitted → r.commutesWith q →
    ∃ s1 s2 u1 u2 : State,
      step { s with pending := r :: q :: rest } = .next s1 ∧ step s1 = .next s2 ∧
      step { s with pending := q :: r :: rest } = .next u1 ∧ step u1 = .next u2 ∧
      s2.mem = u2.mem ∧ s2.pending = u2.pending ∧
      (∀ x, s1.answered x ↔ u2.answered x) ∧ (∀ x, s2.answered x ↔ u1.answered x)

/-! ### Laws across operations -/

/-- R180: ENC and then DEC of the same bytes gives the value and the size back. -/
def Obligations.RoundTrip : Prop :=
  ∀ (s : State) (r q : Request) (rest : List Request), s.mem.wf → s.pending = r :: q :: rest →
    r.op = 1 → q.op = 3 → q.base = r.base → r.concurrent = [] → q.concurrent = [] →
    Codec.esize r.a ≤ r.len → Codec.esize r.a ≤ q.len →
    ∃ t : State, core.run 2 s = .next t ∧ t.answered (.decoded r.a (Codec.esize r.a))

/-- R186, its sentence, with the macros of R78: a signed value through ZZENC, ENC, DEC and ZZDEC comes back. -/
def Obligations.SignedRoundTrip : Prop :=
  ∀ (s : State) (v : I64) (b : View), s.mem.wf → Codec.esize (Codec.zzenc v) ≤ b.len →
    s.pending = Script.senc v b ++ [Script.dec b] →
    ∃ t u : State, core.run 3 s = .next t ∧
      t.answered (.decoded (Codec.zzenc v) (Codec.esize (Codec.zzenc v))) ∧
      step { t with pending := Script.sdecNext t } = .next u ∧ u.answered (.signed v)

/-- R186, its table: the encoded size of a signed value through the transform. -/
def Obligations.SignedSizeTable : Prop :=
  ∀ (v : I64) (size : Nat) (lo hi nlo nhi : Int), (size, (lo, hi), (nlo, nhi)) ∈ Claims.signedTable →
    (Codec.esize (Codec.zzenc v) = size ↔
      (lo ≤ v.toInt ∧ v.toInt ≤ hi) ∨ (nlo ≤ v.toInt ∧ v.toInt ≤ nhi))

/-- R185: DEC and then ENC. The bytes written are the first `n` bytes read exactly when those were canonical;
otherwise they are fewer. -/
def Obligations.DecThenEnc : Prop :=
  ∀ (b destination : List Byte) (v : U64) (n : Nat), Codec.decBuffer b = .ok (v, n) →
    Codec.esize v ≤ destination.length →
    Codec.esize v ≤ n ∧
    ∃ after, Codec.encBuffer v destination = (.ok (Codec.esize v), after) ∧
      Codec.decBuffer after = .ok (v, Codec.esize v) ∧
      (after.take (Codec.esize v) = b.take n ↔ Codec.esize v = n)

/-- R26, the abstract level: the machine's ENC and DEC are the functions of whole buffers. -/
def Obligations.MachineMeetsAbstractLevel : Prop :=
  (∀ s t : State, s.mem.wf → exec .enc s = .next t →
    t.buffer = (Codec.encBuffer s.value s.buffer).2 ∧
    ∀ x, (Codec.encBuffer s.value s.buffer).1 = x →
      t.answered (match x with | .ok n => .written n | .error e => .failure e)) ∧
  (∀ s t : State, exec .dec s = .next t → t.answered (decResult (Codec.decBuffer s.buffer)))

/-! ### The port rendering -/

/-- 10_state section 3 (R27 to R30), the spec's own rendering: the unit as a function of signals gives the signals of
the machine's response, whatever the free values and LENW are. -/
def Obligations.PortGivesTheMachinesSignals : Prop :=
  ∀ (i : Instr) (s t : State), decodeSelect s.req.op = .ok i → exec i s = .next t →
    s.port.fits ∧ s.port.respond s.draws = t.response.map Response.signals

/-- R31 and R32: inputs an operation does not use, and lanes of `din` outside the source or the encoding, do not affect
the response. -/
def Obligations.PortIgnoresUnusedInputs : Prop :=
  ∀ (p q : PortIn) (n : Nat), q.op = p.op →
    ((p.op = 0 ∨ p.op = 4 ∨ p.op = 5) → q.a = p.a → q.respond n = p.respond n) ∧
    (p.op = 1 → q.a = p.a → q.len = p.len → q.respond n = p.respond n) ∧
    (p.op = 2 → q.hdr = p.hdr → q.respond n = p.respond n) ∧
    (p.op = 3 → q.len = p.len → (∀ i, i < Codec.decTouches p.len p.byte → q.byte i = p.byte i) →
      q.respond n = p.respond n)

/-- R28: the status of every response is the code of its result and never 3; a driven count is in 1..9 and stands on
`n` unchanged, and a driven 64-bit result on `r`. -/
def Obligations.StatusAndCountLines : Prop :=
  ∀ p : Response, p.coherent →
    (p.signals.status = 0 ↔ ∀ e, p.result ≠ .failure e) ∧
    (p.signals.status = 1 ↔ p.result = .failure .insufficientBuffer) ∧
    (p.signals.status = 2 ↔ p.result = .failure .overflow) ∧
    p.signals.status ≠ 3 ∧
    (∀ w, p.result.value? = some w → p.signals.r = w) ∧
    ∀ n, p.result.count? = some n → 1 ≤ n ∧ n ≤ 9 ∧ p.signals.n.toNat = n

/-- R30: a write enable is set exactly for the bytes a successful ENC writes; those lanes hold them; and storing the
enabled lanes gives the destination as the machine leaves it. -/
def Obligations.WriteEnablesAreTheWrite : Prop :=
  ∀ (i : Instr) (s t : State) (p : Response), s.mem.wf → exec i s = .next t → t.response = some p →
    (∀ n, p.result = .written n →
      (∀ k, k < 9 → p.signals.we.getLsbD k = decide (k < n)) ∧
      ∀ k, k < n → p.signals.dout[k]? = some ((Codec.encoding s.value).getD k 0)) ∧
    ((∀ n, p.result ≠ .written n) → p.signals.we = 0) ∧
    ∀ k, k < 9 → t.bufByte k = p.signals.storedByte k (s.bufByte k)
end

