-- ==== Sys2Proof/Laws/Codec.lean ====
section
/-! SUPPORT. The codec's functions: the ranges of sizes, the lengths of encodings, and the payload's bytes and number as
inverses. -/

namespace Sys2Proof.Machine

open Config

theorem esize_pos (v : U64) : 1 ≤ Codec.esize v := by
  unfold Codec.esize; split_ifs <;> omega

theorem esize_le (v : U64) : Codec.esize v ≤ 9 := by
  unfold Codec.esize; split_ifs <;> omega

theorem esize_eq_one_iff (v : U64) : Codec.esize v = 1 ↔ v.toNat < 248 := by
  unfold Codec.esize BASE; split_ifs <;> omega

/-- ESIZE, said once: one of nine ranges, with its bounds as numerals (30_encoding R67). -/
theorem esize_cases (v : U64) :
    (v.toNat ≤ 247 ∧ Codec.esize v = 1) ∨
    (248 ≤ v.toNat ∧ v.toNat ≤ 503 ∧ Codec.esize v = 2) ∨
    (504 ≤ v.toNat ∧ v.toNat ≤ 65783 ∧ Codec.esize v = 3) ∨
    (65784 ≤ v.toNat ∧ v.toNat ≤ 16777463 ∧ Codec.esize v = 4) ∨
    (16777464 ≤ v.toNat ∧ v.toNat ≤ 4294967543 ∧ Codec.esize v = 5) ∨
    (4294967544 ≤ v.toNat ∧ v.toNat ≤ 1099511628023 ∧ Codec.esize v = 6) ∨
    (1099511628024 ≤ v.toNat ∧ v.toNat ≤ 281474976710903 ∧ Codec.esize v = 7) ∨
    (281474976710904 ≤ v.toNat ∧ v.toNat ≤ 72057594037928183 ∧ Codec.esize v = 8) ∨
    (72057594037928184 ≤ v.toNat ∧ Codec.esize v = 9) := by
  unfold Codec.esize Codec.bound BASE
  split_ifs <;> omega

/-- The trailing value fits the payload (40_size_calculator R94). -/
theorem esize_fits (v : U64) (h : 248 ≤ v.toNat) : v.toNat - 248 < 256 ^ (Codec.esize v - 1) := by
  have hv := v.isLt
  unfold Codec.esize Codec.bound BASE
  split_ifs <;> omega

/-- Every smaller payload is too small for it (40_size_calculator R94). -/
theorem esize_tight (v : U64) (h : 3 ≤ Codec.esize v) : 256 ^ (Codec.esize v - 2) ≤ v.toNat - 248 := by
  revert h
  unfold Codec.esize Codec.bound BASE
  split_ifs <;> omega

theorem dsize_pos (h : Byte) : 1 ≤ Codec.dsize h := by
  unfold Codec.dsize BASE; split_ifs <;> omega

theorem dsize_le (h : Byte) : Codec.dsize h ≤ 9 := by
  have := h.isLt
  unfold Codec.dsize BASE; split_ifs <;> omega

theorem dsize_eq_one_iff (h : Byte) : Codec.dsize h = 1 ↔ h.toNat < 248 := by
  unfold Codec.dsize BASE; split_ifs <;> omega

theorem dsize_eq_payloadCount (h : Byte) : Codec.dsize h = payloadCount h + 1 := by
  unfold Codec.dsize payloadCount BASE; split_ifs <;> omega

@[simp] theorem length_beBytes (k : Nat) (t : U64) : (beBytes k t).length = k := by
  induction k with
  | zero => rfl
  | succ k ih => simp [beBytes, ih]

theorem length_multiBytes {size : Nat} (h : 1 ≤ size) (t : U64) : (multiBytes size t).length = size := by
  simp [multiBytes]; omega

theorem length_encoding (v : U64) : (Codec.encoding v).length = Codec.esize v := by
  unfold Codec.encoding
  split
  · simp_all
  · exact length_multiBytes (esize_pos v) _

theorem multiHeader_toNat {size : Nat} (h : 2 ≤ size) (h9 : size ≤ 9) :
    (multiHeader size).toNat = 248 + (size - 2) := by
  simp [multiHeader]; omega

theorem dsize_multiHeader {size : Nat} (h : 2 ≤ size) (h9 : size ≤ 9) : Codec.dsize (multiHeader size) = size := by
  have hm := multiHeader_toNat h h9
  unfold Codec.dsize BASE
  split_ifs <;> omega

/-- A payload byte by its index. -/
theorem beBytes_getD (k : Nat) (t : U64) (i : Nat) (h : i < k) :
    ((beBytes k t).getD i 0).toNat = t.toNat / 256 ^ (k - 1 - i) % 256 := by
  induction k generalizing i with
  | zero => omega
  | succ k ih =>
    cases i with
    | zero => simp [beBytes, Nat.shiftRight_eq_div_pow, Nat.pow_mul]
    | succ i =>
      rw [beBytes, List.getD_cons_succ, ih i (by omega)]
      congr 3
      omega

/-- The subtraction of ENC never borrows (41_encoder R106). -/
theorem sub_base_toNat (v : U64) (h : 248 ≤ v.toNat) : (v - BitVec.ofNat 64 BASE).toNat = v.toNat - 248 := by
  have hv := v.isLt
  have h248 : (BitVec.ofNat 64 BASE).toNat = 248 := rfl
  rw [BitVec.toNat_sub, h248]
  omega

/-- The first byte of an encoding: the value itself, or the header. -/
theorem encoding_first (v : U64) :
    ((Codec.encoding v).getD 0 0).toNat = if v.toNat < 248 then v.toNat else 248 + (Codec.esize v - 2) := by
  have h1 := esize_eq_one_iff v
  unfold Codec.encoding
  split_ifs with h h2 h2
  · rw [List.getD_cons_zero, BitVec.toNat_setWidth]; omega
  · omega
  · omega
  · rw [multiBytes, List.getD_cons_zero, multiHeader_toNat (by have := esize_pos v; omega) (esize_le v)]

/-- The bytes of an encoding after the header. -/
theorem encoding_tail (v : U64) (h : 248 ≤ v.toNat) :
    (Codec.encoding v).tail = beBytes (Codec.esize v - 1) (v - BitVec.ofNat 64 BASE) := by
  have h1 := esize_eq_one_iff v
  unfold Codec.encoding
  rw [if_neg (by omega)]
  rfl

/-- A payload byte of an encoding by its index in the buffer. -/
theorem encoding_payload (v : U64) (i : Nat) (h : 248 ≤ v.toNat) (h1 : 1 ≤ i) (h2 : i ≤ Codec.esize v - 1) :
    ((Codec.encoding v).getD i 0).toNat = (v.toNat - 248) / 256 ^ (Codec.esize v - 1 - i) % 256 := by
  have h1' := esize_eq_one_iff v
  unfold Codec.encoding
  rw [if_neg (by omega)]
  obtain ⟨j, rfl⟩ : ∃ j, i = j + 1 := ⟨i - 1, by omega⟩
  rw [multiBytes, List.getD_cons_succ, beBytes_getD _ _ _ (by omega), sub_base_toNat v h]
  congr 3
  omega

/-- ENC's outcome is the comparison of the length with the size, alone (41_encoder R109). -/
theorem enc_eq (v : U64) (len : Nat) :
    Codec.enc v len = if len < Codec.esize v then .error .insufficientBuffer else .ok (Codec.encoding v) := rfl

/-- The payload's bytes as an exact number. -/
theorem bigEndian_beBytes (k : Nat) (t : U64) : bigEndian (beBytes k t) = t.toNat % 256 ^ k := by
  induction k with
  | zero => simp [beBytes, bigEndian, Nat.mod_one]
  | succ k ih =>
    have h1 : ((t >>> (8 * k)).setWidth 8).toNat = t.toNat / 256 ^ k % 256 := by
      simp [Nat.shiftRight_eq_div_pow, Nat.pow_mul]
    rw [beBytes, bigEndian, ih, length_beBytes, h1, Nat.pow_succ, Nat.mod_mul]
    ring

/-- One more byte in the accumulator, as a number. -/
theorem accumulate_toNat (acc : U64) (b : Byte) (h : acc.toNat < 256 ^ 7) :
    ((acc <<< 8) ||| b.setWidth 64).toNat = acc.toNat * 256 + b.toNat := by
  have hb := b.isLt
  have h2 : acc.toNat * 256 % 2 ^ 64 = acc.toNat * 256 := Nat.mod_eq_of_lt (by omega)
  have h3 : b.toNat % 2 ^ 64 = b.toNat := Nat.mod_eq_of_lt (by omega)
  have h4 := Nat.two_pow_add_eq_or_of_lt (i := 8) (b := b.toNat) (by omega) acc.toNat
  simp only [BitVec.toNat_or, BitVec.toNat_shiftLeft, BitVec.toNat_setWidth, Nat.shiftLeft_eq, h3]
  norm_num only at h2 h4 ⊢
  rw [h2, Nat.mul_comm acc.toNat, ← h4]

theorem trailing_fold_toNat (bs : List Byte) (acc : U64) (h : acc.toNat < 256 ^ (8 - bs.length))
    (hl : bs.length ≤ 8) :
    (bs.foldl (fun (acc : U64) b => (acc <<< 8) ||| b.setWidth 64) acc).toNat =
      acc.toNat * 256 ^ bs.length + bigEndian bs := by
  induction bs generalizing acc with
  | nil => simp [bigEndian]
  | cons b bs ih =>
    simp only [List.length_cons] at h hl
    have h7 : acc.toNat < 256 ^ 7 := lt_of_lt_of_le h (Nat.pow_le_pow_right (by omega) (by omega))
    have hacc := accumulate_toNat acc b h7
    have hb := b.isLt
    rw [List.foldl_cons, ih _ _ (by omega), hacc, bigEndian, List.length_cons, Nat.pow_succ]
    · ring
    · rw [hacc, show 8 - bs.length = (8 - (bs.length + 1)) + 1 by omega, Nat.pow_succ]
      omega

/-- The accumulator is exactly the big-endian number of at most eight bytes: no bit is shifted out (43_decoder
R136). -/
theorem trailing_toNat (bs : List Byte) (hl : bs.length ≤ 8) : (trailing bs).toNat = bigEndian bs := by
  have := trailing_fold_toNat bs 0 (by simp) hl
  simpa [trailing] using this

theorem bigEndian_lt (bs : List Byte) : bigEndian bs < 256 ^ bs.length := by
  induction bs with
  | nil => simp [bigEndian]
  | cons b bs ih =>
    have hb := b.isLt
    rw [bigEndian, List.length_cons, Nat.pow_succ]
    nlinarith [Nat.mul_le_mul_right (256 ^ bs.length) (show b.toNat ≤ 255 by omega)]

/-- Reading back the payload of a trailing value that fits it. -/
theorem trailing_beBytes {k : Nat} {t : U64} (hk : k ≤ 8) (ht : t.toNat < 256 ^ k) : trailing (beBytes k t) = t := by
  apply BitVec.eq_of_toNat_eq
  rw [trailing_toNat _ (by simpa using hk), bigEndian_beBytes, Nat.mod_eq_of_lt ht]

/-- The end of a multi-byte decode, said once: Overflow above the bound, else the exact sum. -/
theorem finish_cases (t : U64) (n : Nat) :
    (t.toNat ≤ 0xFFFFFFFFFFFFFF07 ∧ ∃ v : U64, v.toNat = t.toNat + 248 ∧ Codec.finish t n = .ok (v, n)) ∨
      (0xFFFFFFFFFFFFFF07 < t.toNat ∧ Codec.finish t n = .error .overflow) := by
  unfold Codec.finish MAXTRAIL BASE
  by_cases h : t.toNat > 0xFFFFFFFFFFFFFF07
  · exact .inr ⟨h, if_pos h⟩
  · refine .inl ⟨by omega, t + 248, ?_, if_neg h⟩
    have h248 : (248 : U64).toNat = 248 := rfl
    rw [BitVec.toNat_add, h248]
    omega

/-- DEC, said once: one of the four outcomes in the order of its tests (43_decoder R138). -/
theorem dec_cases (len : Nat) (f : Nat → Byte) :
    (len = 0 ∧ Codec.dec len f = .error .insufficientBuffer) ∨
    (0 < len ∧ len < Codec.dsize (f 0) ∧ Codec.dec len f = .error .insufficientBuffer) ∨
    (0 < len ∧ (f 0).toNat < 248 ∧ Codec.dec len f = .ok ((f 0).setWidth 64, 1)) ∨
    (2 ≤ Codec.dsize (f 0) ∧ Codec.dsize (f 0) ≤ len ∧
      Codec.dec len f =
        Codec.finish (trailing ((List.range' 1 (Codec.dsize (f 0) - 1)).map f)) (Codec.dsize (f 0))) := by
  have hp := dsize_pos (f 0)
  have h1 := dsize_eq_one_iff (f 0)
  unfold Codec.dec
  simp only
  split_ifs with h0 hl hs
  · exact .inl ⟨h0, rfl⟩
  · exact .inr (.inl ⟨by omega, hl, rfl⟩)
  · exact .inr (.inr (.inl ⟨by omega, h1.1 hs, rfl⟩))
  · exact .inr (.inr (.inr ⟨by omega, by omega, rfl⟩))

/-- A successful DEC is in range: the count is DSIZE of byte 0, and the value is below BASE exactly when it is 1. -/
theorem dec_ok {len : Nat} {f : Nat → Byte} {v : U64} {n : Nat} (h : Codec.dec len f = .ok (v, n)) :
    n = Codec.dsize (f 0) ∧ n ≤ len ∧ (v.toNat < 248 ↔ n = 1) := by
  have h1 := dsize_eq_one_iff (f 0)
  rcases dec_cases len f with ⟨_, e⟩ | ⟨_, _, e⟩ | ⟨hl, hb, e⟩ | ⟨h2, hl, e⟩ <;> rw [e] at h
  · simp at h
  · simp at h
  · simp only [Except.ok.injEq, Prod.mk.injEq] at h
    obtain ⟨rfl, rfl⟩ := h
    have := (f 0).isLt
    refine ⟨(h1.2 hb).symm, hl, by simp; omega⟩
  · rcases finish_cases (trailing ((List.range' 1 (Codec.dsize (f 0) - 1)).map f)) (Codec.dsize (f 0)) with
      ⟨_, w, hw, e⟩ | ⟨_, e⟩ <;> rw [e] at h
    · simp only [Except.ok.injEq, Prod.mk.injEq] at h
      obtain ⟨rfl, rfl⟩ := h
      exact ⟨rfl, hl, by omega⟩
    · simp at h

/-- DEC depends on the bytes it touches, and on the length only through the comparison with the size (43_decoder R137,
45_arithmetic_and_laws R187). -/
theorem dec_congr {len len' : Nat} {f g : Nat → Byte}
    (hl : len' = len ∨ Codec.dsize (f 0) ≤ len ∧ Codec.dsize (f 0) ≤ len')
    (h : ∀ i, i < Codec.decTouches len f → g i = f i) : Codec.dec len' g = Codec.dec len f := by
  have hp := dsize_pos (f 0)
  by_cases h0 : len = 0
  · have h0' : len' = 0 := by omega
    simp [Codec.dec, h0, h0']
  have hg0 : g 0 = f 0 := h 0 (by unfold Codec.decTouches; split_ifs <;> omega)
  unfold Codec.dec
  simp only
  rw [hg0, if_neg h0, if_neg (by omega)]
  by_cases hs : len < Codec.dsize (f 0)
  · rw [if_pos hs, if_pos (by omega)]
  · rw [if_neg hs, if_neg (by omega)]
    split
    · rfl
    · congr 2
      apply List.map_congr_left
      intro i hi
      rw [List.mem_range'_1] at hi
      apply h
      rw [Codec.decTouches, if_neg h0, if_neg hs]
      omega

/-- The bytes at indices 1 to `k` of a buffer are the first `k` after its header. -/
theorem range_getD_eq_take (payload : List Byte) (header : Byte) (k : Nat) (hk : k ≤ payload.length) :
    ((List.range' 1 k).map fun i => (header :: payload).getD i 0) = payload.take k := by
  apply List.ext_getElem
  · simp; omega
  · intro i h1 h2
    simp at h1 h2
    simp [Nat.add_comm 1 i, h2.2]

/-- DEC of a whole buffer, by its header and the bytes after it. -/
theorem decBuffer_cons (header : Byte) (payload : List Byte) :
    Codec.decBuffer (header :: payload) =
      if payload.length < Codec.dsize header - 1 then .error .insufficientBuffer
      else if Codec.dsize header = 1 then .ok (header.setWidth 64, 1)
      else Codec.finish (trailing (payload.take (Codec.dsize header - 1))) (Codec.dsize header) := by
  have hp := dsize_pos header
  unfold Codec.decBuffer Codec.dec
  simp only [List.length_cons, List.getD_cons_zero]
  rw [if_neg (by omega)]
  by_cases hl : payload.length < Codec.dsize header - 1
  · rw [if_pos (by omega), if_pos hl]
  · rw [if_neg (by omega), if_neg hl]
    congr 2
    rw [range_getD_eq_take _ _ _ (by omega)]

/-- A payload is determined by its length and its number. -/
theorem bigEndian_injective {a b : List Byte} (hl : a.length = b.length) (h : bigEndian a = bigEndian b) : a = b := by
  induction a generalizing b with
  | nil => cases b <;> simp_all
  | cons x a ih =>
    cases b with
    | nil => simp at hl
    | cons y b =>
      simp only [List.length_cons, Nat.add_right_cancel_iff] at hl
      simp only [bigEndian, hl] at h
      have ha := bigEndian_lt a
      have hb := bigEndian_lt b
      rw [hl] at ha
      have hpos : 0 < 256 ^ b.length := by positivity
      have e1 : (x.toNat * 256 ^ b.length + bigEndian a) / 256 ^ b.length = x.toNat := by
        rw [Nat.add_comm, Nat.add_mul_div_right _ _ hpos, Nat.div_eq_of_lt ha, Nat.zero_add]
      have e2 : (y.toNat * 256 ^ b.length + bigEndian b) / 256 ^ b.length = y.toNat := by
        rw [Nat.add_comm, Nat.add_mul_div_right _ _ hpos, Nat.div_eq_of_lt hb, Nat.zero_add]
      obtain rfl : x = y := BitVec.eq_of_toNat_eq (by rw [← e1, h, e2])
      rw [ih hl (by omega)]

/-- Laying out the number of a payload gives the payload back. -/
theorem beBytes_trailing (payload : List Byte) (h : payload.length ≤ 8) :
    beBytes payload.length (trailing payload) = payload := by
  apply bigEndian_injective (by simp)
  rw [bigEndian_beBytes, trailing_toNat payload h, Nat.mod_eq_of_lt (bigEndian_lt payload)]

end Sys2Proof.Machine
end

