-- ==== Sys2Proof/Laws/Decode.lean ====
section
/-! SUPPORT. The decoder: how a header selects its row, and what decoding an encoding laid out from its parts gives. -/

namespace Sys2Proof

open Machine

/-- The front of a byte sequence whose header calls for exactly the payload that follows. -/
theorem decodeWire_payload (header : Byte) (payload rest : List Byte) (h : payload.length = payloadCount header) :
    decodeWire (header :: (payload ++ rest)) = .ok (wireRow header (trailing payload), rest) := by
  simp [decodeWire, ← h]

/-- A multi-byte encoding with a trailing value that fits decodes to its header's row. -/
theorem decodeWire_multiBytes {size : Nat} {t : U64} (h2 : 2 ≤ size) (h9 : size ≤ 9) (ht : t.toNat < 256 ^ (size - 1))
    (rest : List Byte) :
    decodeWire (multiBytes size t ++ rest) = .ok (wireRow (multiHeader size) t, rest) := by
  have hc : payloadCount (multiHeader size) = size - 1 := by
    have := dsize_eq_payloadCount (multiHeader size)
    rw [dsize_multiHeader h2 h9] at this
    omega
  rw [multiBytes, List.cons_append, decodeWire_payload _ _ _ (by rw [length_beBytes, hc]),
    trailing_beBytes (by omega) ht]

/-- Two terms that agree on row and size in both branches of a choice agree on them in the choice. -/
theorem row_ite {c : Prop} [Decidable c] {a b a' b' : Instr} (h : a.row = a'.row ∧ a.wireSize = a'.wireSize)
    (h' : b.row = b'.row ∧ b.wireSize = b'.wireSize) :
    (if c then a else b).row = (if c then a' else b').row ∧
      (if c then a else b).wireSize = (if c then a' else b').wireSize := by
  by_cases hc : c
  · simpa only [if_pos hc] using h
  · simpa only [if_neg hc] using h'

/-- The row a header selects does not depend on the payload. -/
theorem wireRow_row (h : Byte) (t u : U64) :
    (wireRow h t).row = (wireRow h u).row ∧ (wireRow h t).wireSize = (wireRow h u).wireSize := by
  unfold wireRow
  repeat' (first | exact ⟨rfl, rfl⟩ | apply row_ite)

/-- The six select codes. -/
theorem decodeSelect_cases (op : BitVec 3) :
    (op.toNat < 6 ∧ ∃ i, decodeSelect op = .ok i ∧ encode i = .select op ∧ i.wellFormed) ∨
      (6 ≤ op.toNat ∧ decodeSelect op = .error (.unassignedSelect op)) := by
  have h : op = 0 ∨ op = 1 ∨ op = 2 ∨ op = 3 ∨ op = 4 ∨ op = 5 ∨ op = 6 ∨ op = 7 := by revert op; decide
  rcases h with rfl | rfl | rfl | rfl | rfl | rfl | rfl | rfl
  · exact .inl ⟨by decide, .esize, rfl, rfl, rfl⟩
  · exact .inl ⟨by decide, .enc, rfl, rfl, rfl⟩
  · exact .inl ⟨by decide, .dsize, rfl, rfl, rfl⟩
  · exact .inl ⟨by decide, .dec, rfl, rfl, rfl⟩
  · exact .inl ⟨by decide, .zzenc, rfl, rfl, rfl⟩
  · exact .inl ⟨by decide, .zzdec, rfl, rfl, rfl⟩
  · exact .inr ⟨by decide, rfl⟩
  · exact .inr ⟨by decide, rfl⟩

end Sys2Proof
end

