-- ==== Sys2Proof/Laws/Memory.lean ====
section
/-! SUPPORT. The caller's memory: a read after a write, and the canonical form, which every operation keeps and in which
equal contents are equal lists. -/

namespace Sys2Proof.Machine

@[simp] theorem Memory.read_nil (a : Nat) : Memory.read [] a = 0 := rfl

theorem Memory.read_cons (x : Nat) (b : Byte) (m : Memory) (a : Nat) :
    Memory.read ((x, b) :: m) a = if x = a then b else Memory.read m a := rfl

/-- An address below every listed one reads as unlisted. -/
theorem Memory.read_below (m : Memory) (a : Nat) (h : ∀ c ∈ m, a < c.1) : m.read a = 0 := by
  induction m with
  | nil => rfl
  | cons c m ih =>
    obtain ⟨x, b⟩ := c
    have hx : a < x := h (x, b) (by simp)
    rw [Memory.read_cons, if_neg (by omega)]
    exact ih fun c hc => h c (by simp [hc])

theorem Memory.wf_cons {c : Host.Cell} {m : Memory} :
    Memory.wf (c :: m) ↔ (∀ d ∈ m, c.1 < d.1) ∧ c.2 ≠ 0 ∧ m.wf := by
  simp only [Memory.wf, List.pairwise_cons, List.forall_mem_cons]
  tauto

/-- What a write lists lies at the written address or was listed before. -/
theorem Memory.mem_write {m : Memory} {a : Nat} {b : Byte} {c : Host.Cell} (h : c ∈ m.write a b) :
    c.1 = a ∨ c ∈ m := by
  induction m with
  | nil => simp only [Memory.write] at h; split at h <;> simp_all
  | cons d m ih =>
    obtain ⟨x, v⟩ := d
    simp only [Memory.write] at h
    split at h
    · split at h <;> simp_all
      rcases h with rfl | h <;> simp_all
    · split at h
      · split at h <;> simp_all
        rcases h with rfl | h <;> simp_all
      · rcases List.mem_cons.1 h with rfl | h
        · simp
        · rcases ih h with h | h <;> simp [h]

/-- A write keeps the canonical form. -/
theorem Memory.wf_write {m : Memory} (h : m.wf) (a : Nat) (b : Byte) : (m.write a b).wf := by
  induction m with
  | nil => simp only [Memory.write]; split <;> simp_all [Memory.wf]
  | cons d m ih =>
    obtain ⟨x, v⟩ := d
    obtain ⟨hlt, hv, hm⟩ := Memory.wf_cons.1 h
    simp only [Memory.write]
    split
    · split
      · exact h
      · refine Memory.wf_cons.2 ⟨?_, by assumption, h⟩
        intro d hd
        rcases List.mem_cons.1 hd with rfl | hd
        · assumption
        · have := hlt d hd; simp only at *; omega
    · split
      · split
        · exact hm
        · subst a; exact Memory.wf_cons.2 ⟨hlt, by assumption, hm⟩
      · refine Memory.wf_cons.2 ⟨?_, hv, ih hm⟩
        intro d hd
        rcases Memory.mem_write hd with hd | hd
        · simp only at *; omega
        · exact hlt d hd

theorem Memory.wf_writeBytes {m : Memory} (h : m.wf) (a : Nat) (bs : List Byte) : (m.writeBytes a bs).wf := by
  induction bs generalizing m a with
  | nil => exact h
  | cons b bs ih => exact ih (Memory.wf_write h a b) (a + 1)

/-- A read after a write gives the byte written, and every other address reads as before. -/
theorem Memory.read_write {m : Memory} (h : m.wf) (a : Nat) (b : Byte) (x : Nat) :
    (m.write a b).read x = if x = a then b else m.read x := by
  induction m with
  | nil =>
    simp only [Memory.write]
    split
    · simp_all
    · rw [Memory.read_cons]
      by_cases hx : x = a
      · simp [hx]
      · simp [hx, Ne.symm hx]
  | cons d m ih =>
    obtain ⟨y, v⟩ := d
    obtain ⟨hlt, hv, hm⟩ := Memory.wf_cons.1 h
    simp only [Memory.write]
    split
    · split
      · by_cases hx : x = a
        · subst hx
          rw [if_pos rfl, Memory.read_below]
          · simp_all
          · intro c hc
            rcases List.mem_cons.1 hc with rfl | hc
            · assumption
            · have := hlt c hc; simp only at *; omega
        · rw [if_neg hx]
      · simp only [Memory.read_cons, eq_comm]
    · split
      · subst a
        split
        · rw [Memory.read_cons]
          by_cases hx : x = y
          · subst hx
            rw [Memory.read_below m x (fun c hc => hlt c hc)]
            simp_all
          · simp [hx, Ne.symm hx]
        · simp only [Memory.read_cons]
          by_cases hx : x = y
          · simp [hx]
          · simp [hx, Ne.symm hx]
      · rw [Memory.read_cons, ih hm, Memory.read_cons]
        by_cases hx : y = x
        · subst hx
          rw [if_pos rfl, if_neg (by omega), if_pos rfl]
        · simp [hx]

/-- Reading after writing a run of bytes: index `x - a` of the run inside it, as before outside. -/
theorem Memory.read_writeBytes {m : Memory} (h : m.wf) (a : Nat) (bs : List Byte) (x : Nat) :
    (m.writeBytes a bs).read x = if a ≤ x ∧ x < a + bs.length then bs.getD (x - a) 0 else m.read x := by
  induction bs generalizing m a with
  | nil => simp [Memory.writeBytes]
  | cons b bs ih =>
    rw [Memory.writeBytes, ih (Memory.wf_write h a b), Memory.read_write h]
    rcases Nat.lt_trichotomy x a with hx | hx | hx
    · rw [if_neg (by omega), if_neg (by omega), if_neg (by omega)]
    · subst hx
      rw [if_neg (by omega), if_pos rfl, if_pos (by simp)]
      simp
    · have hx1 : x - a = (x - (a + 1)) + 1 := by omega
      by_cases hlt : x < a + 1 + bs.length
      · rw [if_pos (by omega), if_pos (by simp; omega), hx1, List.getD_cons_succ]
      · rw [if_neg (by omega), if_neg (by omega), if_neg (by simp; omega)]

/-- In canonical form, equal contents are equal memories. -/
theorem Memory.ext_of_wf {m n : Memory} (hm : m.wf) (hn : n.wf) (h : ∀ a, m.read a = n.read a) : m = n := by
  induction m generalizing n with
  | nil =>
    cases n with
    | nil => rfl
    | cons d n =>
      obtain ⟨y, w⟩ := d
      have := h y
      simp [Memory.read_cons] at this
      exact absurd this.symm (Memory.wf_cons.1 hn).2.1
  | cons c m ih =>
    obtain ⟨x, v⟩ := c
    obtain ⟨hlt, hv, hm'⟩ := Memory.wf_cons.1 hm
    cases n with
    | nil =>
      have := h x
      simp [Memory.read_cons] at this
      exact absurd this hv
    | cons d n =>
      obtain ⟨y, w⟩ := d
      obtain ⟨hlt', hw, hn'⟩ := Memory.wf_cons.1 hn
      rcases Nat.lt_trichotomy x y with hxy | hxy | hxy
      · have := h x
        rw [Memory.read_cons, if_pos rfl, Memory.read_below] at this
        · exact absurd this hv
        · intro c hc
          rcases List.mem_cons.1 hc with rfl | hc
          · exact hxy
          · have := hlt' c hc; simp only at *; omega
      · subst hxy
        have hvw : v = w := by simpa [Memory.read_cons] using h x
        subst hvw
        rw [ih hm' hn']
        intro a
        by_cases ha : x = a
        · subst ha
          rw [Memory.read_below m x hlt, Memory.read_below n x hlt']
        · simpa [Memory.read_cons, ha] using h a
      · have := h y
        rw [Memory.read_cons, if_neg (by omega), Memory.read_cons, if_pos rfl, Memory.read_below] at this
        · exact absurd this.symm hw
        · intro c hc
          have := hlt c hc; simp only at *; omega

@[simp] theorem Memory.length_bytes (m : Memory) (a n : Nat) : (m.bytes a n).length = n := by
  simp [Memory.bytes]

theorem Memory.getD_bytes (m : Memory) {a n i : Nat} (h : i < n) : (m.bytes a n).getD i 0 = m.read (a + i) := by
  simp [Memory.bytes, List.getD_eq_getElem?_getD, h]

end Sys2Proof.Machine
end

