-- ==== Sys2Proof/Laws/State.lean ====
section
/-! SUPPORT. One lemma per field per update of State, true by rfl. -/

namespace Sys2Proof.Machine

variable (s : State) (res : Result) (bs : List Byte) (e : Err) (r : Request)

@[simp] theorem reply_mem : (s.reply res bs).mem = s.mem.writeBytes s.req.base bs := rfl
@[simp] theorem reply_pending : (s.reply res bs).pending = s.pending := rfl
@[simp] theorem reply_req : (s.reply res bs).req = s.req := rfl
@[simp] theorem reply_draws : (s.reply res bs).draws = s.draws + 1 := rfl
@[simp] theorem reply_response :
    (s.reply res bs).response = some { result := res, stored := bs, draw := s.draws } := rfl

@[simp] theorem fail_mem : (s.fail e).mem = s.mem := rfl
@[simp] theorem fail_pending : (s.fail e).pending = s.pending := rfl
@[simp] theorem fail_req : (s.fail e).req = s.req := rfl
@[simp] theorem fail_draws : (s.fail e).draws = s.draws + 1 := rfl
@[simp] theorem fail_response :
    (s.fail e).response = some { result := .failure e, stored := [], draw := s.draws } := rfl

@[simp] theorem issue_mem : (s.issue r).mem = s.mem := rfl
@[simp] theorem issue_pending : (s.issue r).pending = s.pending ++ [r] := rfl
@[simp] theorem issue_req : (s.issue r).req = s.req := rfl
@[simp] theorem issue_draws : (s.issue r).draws = s.draws := rfl
@[simp] theorem issue_response : (s.issue r).response = s.response := rfl

@[simp] theorem resetPulse_eq : s.resetPulse = s := rfl

@[simp] theorem reset_mem : State.reset.mem = [] := rfl
@[simp] theorem reset_pending : State.reset.pending = [] := rfl
@[simp] theorem reset_req : State.reset.req = Request.zero := rfl
@[simp] theorem reset_response : State.reset.response = none := rfl
@[simp] theorem reset_draws : State.reset.draws = 0 := rfl

/-- A reply answers exactly its result. -/
@[simp] theorem answered_reply (q : Result) : (s.reply res bs).answered q ↔ res = q := by
  simp [State.answered]

/-- A reply that stores nothing is a reply only. -/
theorem repliedOnly_reply : s.repliedOnly (s.reply res []) res :=
  ⟨⟨_, rfl, rfl, rfl⟩, ⟨rfl, rfl⟩, fun _ => rfl⟩

/-- Ending a decode is a reply that stores nothing, whatever the outcome. -/
theorem finishDecode_eq (x : Except Err (U64 × Nat)) : s.finishDecode x = s.reply (decResult x) [] := by
  cases x <;> rfl

end Sys2Proof.Machine
end

