-- ==== Sys2Proof/Laws/Exec.lean ====
section
/-! SUPPORT. What the shared operations, each meaning, exec and step can do, said once. -/

namespace Sys2Proof.Machine

/-! ### Overlap -/

/-- A request that declares no unordered invocation overlaps none. -/
theorem overlaps_of_alone {s : State} (h : s.req.concurrent = []) (n : Nat) (w : Bool) : s.overlaps n w = false := by
  simp [State.overlaps, h]

theorem encQuiet_of_alone {s : State} (h : s.req.concurrent = []) : s.encQuiet := overlaps_of_alone h _ _

theorem decQuiet_of_alone {s : State} (h : s.req.concurrent = []) : s.decQuiet := overlaps_of_alone h _ _

/-- An operation that touches no byte overlaps none. -/
theorem overlaps_zero (s : State) (w : Bool) : s.overlaps 0 w = false := by
  simp [State.overlaps, Extent.meets]

/-- DEC touches at most nine bytes, and none past the end of its source. -/
theorem decTouches_le (len : Nat) (f : Nat → Byte) : Codec.decTouches len f ≤ 9 ∧ Codec.decTouches len f ≤ len := by
  have := dsize_le (f 0)
  unfold Codec.decTouches
  split_ifs <;> omega

/-! ### The meanings of ENC and DEC -/

theorem execEnc_short {s : State} (h : s.bufLen < Codec.esize s.value) :
    execEnc s = .next (s.fail .insufficientBuffer) := by
  simp [execEnc, Codec.enc, h]

theorem execEnc_fits {s : State} (h : Codec.esize s.value ≤ s.bufLen) :
    execEnc s =
      if s.overlaps (Codec.esize s.value) true then .refused .unserializedOverlap
      else .next (s.reply (.written (Codec.esize s.value)) (Codec.encoding s.value)) := by
  simp [execEnc, Codec.enc, Nat.not_lt.2 h, length_encoding]

theorem execDec_eq (s : State) :
    execDec s =
      if s.overlaps (Codec.decTouches s.bufLen s.bufByte) false then .refused .unserializedOverlap
      else .next (s.reply (decResult (Codec.dec s.bufLen s.bufByte)) []) := by
  simp [execDec, finishDecode_eq]

/-- Where no unordered invocation is in conflict ENC and DEC answer. -/
theorem execEnc_quiet {s : State} (hq : s.encQuiet) (h : Codec.esize s.value ≤ s.bufLen) :
    execEnc s = .next (s.reply (.written (Codec.esize s.value)) (Codec.encoding s.value)) := by
  rw [execEnc_fits h, if_neg (by simpa [State.encQuiet] using hq)]

theorem execDec_quiet {s : State} (hq : s.decQuiet) :
    execDec s = .next (s.reply (decResult (Codec.dec s.bufLen s.bufByte)) []) := by
  rw [execDec_eq, if_neg (by simpa [State.decQuiet] using hq)]

/-! ### exec and step -/

/-- Whatever instruction answers, it answers by a reply; only ENC stores bytes, and then as many as it reports. -/
theorem exec_next {i : Instr} {s t : State} (h : exec i s = .next t) :
    ∃ res bs, t = s.reply res bs ∧
      (bs = [] ∧ (∀ n, res ≠ .written n) ∨
        i = .enc ∧ res = .written (Codec.esize s.value) ∧ bs = Codec.encoding s.value) := by
  cases i
  case enc =>
    rcases Nat.lt_or_ge s.bufLen (Codec.esize s.value) with hl | hl
    · simp only [exec, execEnc_short hl, Host.Outcome.next.injEq] at h
      exact ⟨_, _, h.symm, .inl ⟨rfl, by simp⟩⟩
    · simp only [exec, execEnc_fits hl] at h
      split at h
      · cases h
      · simp only [Host.Outcome.next.injEq] at h
        exact ⟨_, _, h.symm, .inr ⟨rfl, rfl, rfl⟩⟩
  case dec =>
    simp only [exec, execDec_eq] at h
    split at h
    · cases h
    · simp only [Host.Outcome.next.injEq] at h
      refine ⟨_, _, h.symm, .inl ⟨rfl, ?_⟩⟩
      intro n
      unfold decResult
      split <;> simp
  all_goals
    simp only [exec, execEsize, execDsize, execZzenc, execZzdec, execW1a, execW1b, execW1c, execW1d, execW1e,
      execW2, execW3, execW4, execW5, execW6, execW7, execW8, execW9, State.singleByte, State.multiByte,
      finishDecode_eq, Host.Outcome.next.injEq] at h
    refine ⟨_, _, h.symm, .inl ⟨rfl, ?_⟩⟩
    intro n
    first
    | (unfold decResult; split <;> simp)
    | simp

/-- DEC, when it answers, answers what its function gives. -/
theorem execDec_next {s t : State} (h : exec .dec s = .next t) :
    t = s.reply (decResult (Codec.dec s.bufLen s.bufByte)) [] := by
  simp only [exec, execDec_eq] at h
  split at h
  · cases h
  · simpa using h.symm

/-! ### The row of a source buffer -/

/-- A buffer operand that is not empty, by its first byte. -/
theorem buffer_cons (s : State) (h : s.bufLen ≠ 0) :
    s.buffer = s.bufByte 0 :: (List.range (s.bufLen - 1)).map fun i => s.bufByte (i + 1) := by
  obtain ⟨n, hn⟩ : ∃ n, s.bufLen = n + 1 := ⟨s.bufLen - 1, by omega⟩
  unfold State.bufLen at hn
  rw [State.buffer, Memory.bytes, hn, List.range_succ_eq_map]
  simp [State.bufByte, hn, State.bufLen]

/-- What decoding the source buffer gives: no header, too few bytes, or the row of byte 0 with the payload's trailing
value. -/
theorem decodeWire_buffer (s : State) :
    (s.bufLen = 0 ∧ decodeWire s.buffer = .error .emptyBuffer) ∨
    (s.bufLen ≠ 0 ∧ s.bufLen < Codec.dsize (s.bufByte 0) ∧ decodeWire s.buffer = .error .truncated) ∨
    (s.bufLen ≠ 0 ∧ Codec.dsize (s.bufByte 0) ≤ s.bufLen ∧ ∃ rest,
      decodeWire s.buffer =
        .ok (wireRow (s.bufByte 0)
          (trailing ((List.range' 1 (Codec.dsize (s.bufByte 0) - 1)).map s.bufByte)), rest)) := by
  by_cases h0 : s.bufLen = 0
  · refine .inl ⟨h0, ?_⟩
    unfold State.buffer
    unfold State.bufLen at h0
    rw [h0]
    rfl
  · have hd := dsize_eq_payloadCount (s.bufByte 0)
    rw [buffer_cons s h0, decodeWire]
    simp only [List.length_map, List.length_range]
    by_cases hs : s.bufLen < Codec.dsize (s.bufByte 0)
    · exact .inr (.inl ⟨h0, hs, by rw [if_pos (by omega)]⟩)
    · have hc : (s.bufByte ∘ fun x => 1 + x) = fun i => s.bufByte (i + 1) := by
        funext i
        simp [Nat.add_comm]
      have hm : min (payloadCount (s.bufByte 0)) (s.bufLen - 1) = payloadCount (s.bufByte 0) := by omega
      refine .inr (.inr ⟨h0, by omega, ((List.range (s.bufLen - 1)).map fun i => s.bufByte (i + 1)).drop
        (payloadCount (s.bufByte 0)), ?_⟩)
      rw [if_neg (by omega), ← List.map_take, List.take_range, hd, Nat.add_sub_cancel, List.range'_eq_map_range,
        List.map_map, hm, hc]

/-- What the row of a header does: the single byte's value, or the end of a multi-byte decode. -/
theorem exec_wireRow (s : State) (h : Byte) (t : U64) :
    exec (wireRow h t) s =
      .next (s.finishDecode
        (if Codec.dsize h = 1 then .ok (h.setWidth 64, 1) else Codec.finish t (Codec.dsize h))) := by
  have k1 : ∀ h : Byte, h &&& 0x80 = 0x00 ∨ h &&& 0xC0 = 0x80 ∨ h &&& 0xE0 = 0xC0 ∨ h &&& 0xF0 = 0xE0 ∨
      h &&& 0xF8 = 0xF0 → Codec.dsize h = 1 := by decide
  have k2 : ∀ h : Byte, h &&& 0x80 = 0x00 ∨ h &&& 0xC0 = 0x80 ∨ h &&& 0xE0 = 0xC0 ∨ h &&& 0xF0 = 0xE0 ∨
      h &&& 0xF8 = 0xF0 ∨ h ∈ [0xF8, 0xF9, 0xFA, 0xFB, 0xFC, 0xFD, 0xFE, 0xFF] := by decide
  rcases k2 h with c | c | c | c | c | c
  · rw [wireRow, if_pos c, if_pos (k1 h (by tauto))]; rfl
  · have n1 : ¬ h &&& 0x80 = 0x00 := by revert h; decide
    rw [wireRow, if_neg n1, if_pos c, if_pos (k1 h (by tauto))]; rfl
  · have n1 : ¬ h &&& 0x80 = 0x00 ∧ ¬ h &&& 0xC0 = 0x80 := by revert h; decide
    rw [wireRow, if_neg n1.1, if_neg n1.2, if_pos c, if_pos (k1 h (by tauto))]; rfl
  · have n1 : ¬ h &&& 0x80 = 0x00 ∧ ¬ h &&& 0xC0 = 0x80 ∧ ¬ h &&& 0xE0 = 0xC0 := by revert h; decide
    rw [wireRow, if_neg n1.1, if_neg n1.2.1, if_neg n1.2.2, if_pos c, if_pos (k1 h (by tauto))]; rfl
  · have n1 : ¬ h &&& 0x80 = 0x00 ∧ ¬ h &&& 0xC0 = 0x80 ∧ ¬ h &&& 0xE0 = 0xC0 ∧ ¬ h &&& 0xF0 = 0xE0 := by
      revert h; decide
    rw [wireRow, if_neg n1.1, if_neg n1.2.1, if_neg n1.2.2.1, if_neg n1.2.2.2, if_pos c, if_pos (k1 h (by tauto))]
    rfl
  · simp only [List.mem_cons, List.not_mem_nil, or_false] at c
    rcases c with rfl | rfl | rfl | rfl | rfl | rfl | rfl | rfl <;> rfl

/-- A step that answers found no request and changed nothing, or ran the instruction of the oldest request. -/
theorem step_next {s t : State} (h : step s = .next t) :
    (s.pending = [] ∧ t = s) ∨
      ∃ r rest i, s.pending = r :: rest ∧ decodeSelect r.op = .ok i ∧
        exec i { s with req := r, pending := rest } = .next t := by
  unfold step State.present? at h
  cases hp : s.pending with
  | nil => simp only [hp] at h; exact .inl ⟨rfl, (by simpa using h.symm)⟩
  | cons r rest =>
    simp only [hp] at h
    cases hd : decodeSelect r.op with
    | error e => simp [hd] at h
    | ok i => simp only [hd] at h; exact .inr ⟨r, rest, i, rfl, hd, h⟩

end Sys2Proof.Machine
end

