-- ==== Sys2Proof/Laws/PerInstr.lean ====
section
/-! SUPPORT. Statements made once per instruction. Family TableRow: the word an instruction is encoded as matches the
mask and pattern of its own row of the opcode table (30_encoding R79), and a WIRE row's encoding has the row's size
(R62). -/

namespace Sys2Proof.Laws.TableRow

open Sys2Proof.Machine

/-- The select code, or the header, as a number. -/
def leading : Code → Nat
  | .select op => op.toNat
  | .wire bs => (bs.headD 0).toNat

/-- The encoding of a well-formed instruction matches its row, and has its row's size. -/
def Statement (i : Instr) : Prop :=
  i.wellFormed →
    leading (encode i) &&& i.row.2.1 = i.row.2.2 ∧ (encode i).bytes.length = i.wireSize

theorem esize : Statement .esize := fun _ => ⟨rfl, rfl⟩
theorem enc : Statement .enc := fun _ => ⟨rfl, rfl⟩
theorem dsize : Statement .dsize := fun _ => ⟨rfl, rfl⟩
theorem dec : Statement .dec := fun _ => ⟨rfl, rfl⟩
theorem zzenc : Statement .zzenc := fun _ => ⟨rfl, rfl⟩
theorem zzdec : Statement .zzdec := fun _ => ⟨rfl, rfl⟩

theorem w1a (v : Byte) : Statement (.w1a v) := by revert v; unfold Statement; decide
theorem w1b (v : Byte) : Statement (.w1b v) := by revert v; unfold Statement; decide
theorem w1c (v : Byte) : Statement (.w1c v) := by revert v; unfold Statement; decide
theorem w1d (v : Byte) : Statement (.w1d v) := by revert v; unfold Statement; decide
theorem w1e (v : Byte) : Statement (.w1e v) := by revert v; unfold Statement; decide

/-- A multi-byte encoding's length is its row's size, whatever the trailing value. -/
theorem multi (size : Nat) (t : U64) (h : 1 ≤ size) : (Code.wire (multiBytes size t)).bytes.length = size :=
  length_multiBytes h t

theorem w2 (t : U64) : Statement (.w2 t) := fun _ => ⟨(by decide : (multiHeader 2).toNat &&& 0xFF = 0xF8), multi 2 t (by omega)⟩
theorem w3 (t : U64) : Statement (.w3 t) := fun _ => ⟨(by decide : (multiHeader 3).toNat &&& 0xFF = 0xF9), multi 3 t (by omega)⟩
theorem w4 (t : U64) : Statement (.w4 t) := fun _ => ⟨(by decide : (multiHeader 4).toNat &&& 0xFF = 0xFA), multi 4 t (by omega)⟩
theorem w5 (t : U64) : Statement (.w5 t) := fun _ => ⟨(by decide : (multiHeader 5).toNat &&& 0xFF = 0xFB), multi 5 t (by omega)⟩
theorem w6 (t : U64) : Statement (.w6 t) := fun _ => ⟨(by decide : (multiHeader 6).toNat &&& 0xFF = 0xFC), multi 6 t (by omega)⟩
theorem w7 (t : U64) : Statement (.w7 t) := fun _ => ⟨(by decide : (multiHeader 7).toNat &&& 0xFF = 0xFD), multi 7 t (by omega)⟩
theorem w8 (t : U64) : Statement (.w8 t) := fun _ => ⟨(by decide : (multiHeader 8).toNat &&& 0xFF = 0xFE), multi 8 t (by omega)⟩
theorem w9 (t : U64) : Statement (.w9 t) := fun _ => ⟨(by decide : (multiHeader 9).toNat &&& 0xFF = 0xFF), multi 9 t (by omega)⟩

end Sys2Proof.Laws.TableRow
end

