-- ==== Sys2Proof/Tests/Slice0.lean ====
section
/-! SUPPORT. The model's own tests: ill-formed terms, words written out from the spec's encodings, the spec's vectors
(95_test_vectors), and for each statement with hypotheses a state that meets them. -/

namespace Sys2Proof.Tests

open Sys2Proof.Machine

/-! ### Helpers -/

/-- A request on the lines: operands, and a buffer at address 16 that holds `bytes`. -/
def st (op : BitVec 3) (a : U64) (hdr : Byte) (bytes : List Byte) : State :=
  { State.reset with
    mem := Memory.writeBytes [] 16 bytes
    req := { Request.zero with op := op, a := a, hdr := hdr, base := 16, len := bytes.length } }

/-- The result an outcome carries. -/
def resultOf : Host.Outcome State Fault Refusal → Option Result
  | .next t => t.response.map (·.result)
  | .fault _ => none
  | .refused _ => none

/-- The buffer operand after an outcome. -/
def bufferOf : Host.Outcome State Fault Refusal → Option (List Byte)
  | .next t => some t.buffer
  | .fault _ => none
  | .refused _ => none

/-- The refusal an outcome carries. -/
def refusalOf : Host.Outcome State Fault Refusal → Option Refusal
  | .next _ => none
  | .fault _ => none
  | .refused r => some r

/-- The write enables an outcome's response drives. -/
def enablesOf : Host.Outcome State Fault Refusal → Option (BitVec 9)
  | .next t => t.response.map (·.enables)
  | .fault _ => none
  | .refused _ => none

/-! ### Ill-formed terms, one for each check of WellFormed, and the last well-formed one beside it -/

theorem test_illformed_single :
    (Instr.w1a 0x80).wellFormed = false ∧ (Instr.w1b 0x7F).wellFormed = false ∧
    (Instr.w1b 0xC0).wellFormed = false ∧ (Instr.w1c 0xBF).wellFormed = false ∧
    (Instr.w1c 0xE0).wellFormed = false ∧ (Instr.w1d 0xDF).wellFormed = false ∧
    (Instr.w1d 0xF0).wellFormed = false ∧ (Instr.w1e 0xEF).wellFormed = false ∧
    (Instr.w1e 0xF8).wellFormed = false := by decide

theorem test_illformed_multi :
    (Instr.w2 0x100).wellFormed = false ∧ (Instr.w3 0x10000).wellFormed = false ∧
    (Instr.w4 0x1000000).wellFormed = false ∧ (Instr.w5 0x100000000).wellFormed = false ∧
    (Instr.w6 0x10000000000).wellFormed = false ∧ (Instr.w7 0x1000000000000).wellFormed = false ∧
    (Instr.w8 0x100000000000000).wellFormed = false := by decide

theorem test_wellformed_bounds :
    (Instr.w1a 0x7F).wellFormed ∧ (Instr.w1b 0xBF).wellFormed ∧ (Instr.w1c 0xDF).wellFormed ∧
    (Instr.w1d 0xEF).wellFormed ∧ (Instr.w1e 0xF7).wellFormed ∧ (Instr.w2 0xFF).wellFormed ∧
    (Instr.w8 0xFFFFFFFFFFFFFF).wellFormed ∧ (Instr.w9 0xFFFFFFFFFFFFFFFF).wellFormed := by decide

/-! ### Decoding: words written out from 30_encoding R75 and R62 -/

theorem test_decode_selects :
    (decode (.select 0b000#3)).toOption = some .esize ∧ (decode (.select 0b001#3)).toOption = some .enc ∧
    (decode (.select 0b010#3)).toOption = some .dsize ∧ (decode (.select 0b011#3)).toOption = some .dec ∧
    (decode (.select 0b100#3)).toOption = some .zzenc ∧ (decode (.select 0b101#3)).toOption = some .zzdec := by decide

theorem test_decode_select_unassigned :
    decode (.select 0b110#3) = .error (.unassignedSelect 6) ∧
    decode (.select 0b111#3) = .error (.unassignedSelect 7) := ⟨rfl, rfl⟩

theorem test_decode_single_byte_rows :
    (decode (.wire [0b00101010])).toOption = some (.w1a 0x2A) ∧
    (decode (.wire [0b10000001])).toOption = some (.w1b 0x81) ∧
    (decode (.wire [0b11000010])).toOption = some (.w1c 0xC2) ∧
    (decode (.wire [0b11100011])).toOption = some (.w1d 0xE3) ∧
    (decode (.wire [0b11110111])).toOption = some (.w1e 0xF7) := by decide

/-- The payloads of V-DEC-7, 10, 23 to 27 and 15. -/
theorem test_decode_multi_byte_rows :
    (decode (.wire [0b11111000, 0xFF])).toOption = some (.w2 0xFF) ∧
    (decode (.wire [0b11111001, 0x01, 0x23])).toOption = some (.w3 0x0123) ∧
    (decode (.wire [0b11111010, 0x01, 0x00, 0x00])).toOption = some (.w4 0x010000) ∧
    (decode (.wire [0b11111011, 0x12, 0x34, 0x56, 0x78])).toOption = some (.w5 0x12345678) ∧
    (decode (.wire [0b11111100, 0x01, 0x02, 0x03, 0x04, 0x05])).toOption = some (.w6 0x0102030405) ∧
    (decode (.wire [0b11111101, 0x01, 0x02, 0x03, 0x04, 0x05, 0x06])).toOption = some (.w7 0x010203040506) ∧
    (decode (.wire [0b11111110, 0x01, 0x02, 0x03, 0x04, 0x05, 0x06, 0x07])).toOption =
      some (.w8 0x01020304050607) ∧
    (decode (.wire [0b11111111, 0xFF, 0xFF, 0xFF, 0xFF, 0xFF, 0xFF, 0xFF, 0x07])).toOption =
      some (.w9 0xFFFFFFFFFFFFFF07) := by decide

theorem test_decode_rejects :
    decode (.wire []) = .error .emptyBuffer ∧ decode (.wire [0xF9, 0x01]) = .error .truncated := ⟨rfl, rfl⟩

/-- 30_encoding R62: two encodings laid out from the table. -/
theorem test_encode_rows :
    encode (.w3 0x0123) = .wire [0xF9, 0x01, 0x23] ∧ encode (.w2 0x00) = .wire [0xF8, 0x00] ∧
    encode (.w1e 0xF7) = .wire [0xF7] ∧ encode .zzdec = .select 5 := by decide

/-- 95_test_vectors P3, the buffer after line 3. -/
theorem test_decode_stream :
    (decodeStream 3 [0x2A, 0xF8, 0x00, 0xFF, 0xFF, 0xFF, 0xFF, 0xFF, 0xFF, 0xFF, 0xFF, 0x07]).toOption =
      some [.w1a 0x2A, .w2 0x00, .w9 0xFFFFFFFFFFFFFF07] := by decide

/-- 30_encoding R77: views of a buffer of length 12, inside its bounds, with lengths `L - i` and `j - i`. -/
theorem test_views :
    (View.mk 16 12).from 3 = View.mk 19 9 ∧ (View.mk 16 12).from 12 = View.mk 28 0 ∧
    (View.mk 16 12).slice 1 3 = View.mk 17 2 ∧ (View.mk 16 12).slice 0 12 = View.mk 16 12 := by decide

/-! ### Table words: each row's word is decoded, placed, and run by the very next step -/

theorem test_table_words :
    decodeTableWord 8 0 = some .esize ∧ decodeTableWord 8 1 = some .enc ∧ decodeTableWord 8 2 = some .dsize ∧
    decodeTableWord 8 3 = some .dec ∧ decodeTableWord 8 4 = some .zzenc ∧ decodeTableWord 8 5 = some .zzdec ∧
    decodeTableWord 3 3 = some .dec ∧ decodeTableWord 3 6 = none ∧
    decodeTableWord 8 0x40 = some (.w1a 0x40) ∧ decodeTableWord 8 0x80 = some (.w1b 0x80) ∧
    decodeTableWord 8 0xC0 = some (.w1c 0xC0) ∧ decodeTableWord 8 0xE0 = some (.w1d 0xE0) ∧
    decodeTableWord 8 0xF0 = some (.w1e 0xF0) ∧ decodeTableWord 8 0xF8 = some (.w2 0) ∧
    decodeTableWord 8 0xFB = some (.w5 0) ∧ decodeTableWord 8 0xFF = some (.w9 0) := by decide

theorem test_fetch_select : resultOf (step (State.reset.withFetchWord 8 2)) = some (.size 1) := by decide

theorem test_fetch_wire : resultOf (step (State.reset.withFetchWord 8 0xFA)) = some (.decoded 248 4) := by decide

/-! ### The operations, against the spec's vectors -/

/-- S2, V-ESIZE-5. -/
theorem test_esize_at_base : resultOf (exec .esize (st 0 0xF8 0 [])) = some (.size 2) := by decide

/-- V-ESIZE-24 and V-ESIZE-25. -/
theorem test_esize_last_threshold :
    resultOf (exec .esize (st 0 0x1000000000000F7 0 [])) = some (.size 8) ∧
    resultOf (exec .esize (st 0 0x1000000000000F8 0 [])) = some (.size 9) := by decide

/-- V-ENCL-14. -/
theorem test_enc_leaves_the_rest :
    bufferOf (exec .enc (st 1 539 0 [0xAA, 0xAA, 0xAA, 0xAA, 0xAA, 0xAA])) =
      some [0xF9, 0x01, 0x23, 0xAA, 0xAA, 0xAA] := by decide

/-- V-ENCL-6. -/
theorem test_enc_short :
    let o := exec .enc (st 1 0xFFFFFFFFFFFFFFFF 0 [0xAA, 0xAA, 0xAA, 0xAA, 0xAA, 0xAA, 0xAA, 0xAA])
    resultOf o = some (.failure .insufficientBuffer) ∧
      bufferOf o = some [0xAA, 0xAA, 0xAA, 0xAA, 0xAA, 0xAA, 0xAA, 0xAA] ∧ enablesOf o = some 0 := by decide

/-- V-DSIZE-5 and V-DSIZE-13. -/
theorem test_dsize_bounds :
    resultOf (exec .dsize (st 2 0 0xF7 [])) = some (.size 1) ∧
    resultOf (exec .dsize (st 2 0 0xFF [])) = some (.size 9) := by decide

/-- V-DEC-28: big-endian, with a carry into the next byte. -/
theorem test_dec_nine_bytes :
    resultOf (exec .dec (st 3 0 0 [0xFF, 0x01, 0x02, 0x03, 0x04, 0x05, 0x06, 0x07, 0x08])) =
      some (.decoded 0x102030405060800 9) := by decide

/-- V-DEC-16, V-DEC-18 and V-DEC-12. -/
theorem test_dec_errors_and_non_minimal :
    resultOf (exec .dec (st 3 0 0 [0xFF, 0xFF, 0xFF, 0xFF, 0xFF, 0xFF, 0xFF, 0xFF, 0x08])) =
      some (.failure .overflow) ∧
    resultOf (exec .dec (st 3 0 0 [0xFF, 0xFF, 0xFF, 0xFF, 0xFF, 0xFF, 0xFF, 0xFF])) =
      some (.failure .insufficientBuffer) ∧
    resultOf (exec .dec (st 3 0 0 [0xF9, 0x00, 0x05])) = some (.decoded 253 3) := by decide

/-- V-ZZ-17 and V-ZZ-10. -/
theorem test_zzenc :
    resultOf (exec .zzenc (st 4 0x8000000000000000 0 [])) = some (.unsigned 0xFFFFFFFFFFFFFFFF) ∧
    resultOf (exec .zzenc (st 4 0xFFFFFFFFFFFFFED4 0 [])) = some (.unsigned 599) := by decide

/-- V-ZZ-16 and V-ZZ-10, the other way. -/
theorem test_zzdec :
    resultOf (exec .zzdec (st 5 0xFFFFFFFFFFFFFFFE 0 [])) = some (.signed 0x7FFFFFFFFFFFFFFF) ∧
    resultOf (exec .zzdec (st 5 599 0 [])) = some (.signed 0xFFFFFFFFFFFFFED4) := by decide

/-- V-DEC-3 and neighbours: the single-byte rows' values. -/
theorem test_single_byte_rows :
    resultOf (exec (.w1a 0x2A) State.reset) = some (.decoded 42 1) ∧
    resultOf (exec (.w1b 0x80) State.reset) = some (.decoded 128 1) ∧
    resultOf (exec (.w1c 0xC0) State.reset) = some (.decoded 192 1) ∧
    resultOf (exec (.w1d 0xE0) State.reset) = some (.decoded 224 1) ∧
    resultOf (exec (.w1e 0xF7) State.reset) = some (.decoded 247 1) := by decide

/-- V-DEC-7, 10, 23 to 27, 15 and 16: the multi-byte rows' values and sizes. -/
theorem test_multi_byte_rows :
    resultOf (exec (.w2 0xFF) State.reset) = some (.decoded 503 2) ∧
    resultOf (exec (.w3 0x0123) State.reset) = some (.decoded 539 3) ∧
    resultOf (exec (.w4 0x010000) State.reset) = some (.decoded 65784 4) ∧
    resultOf (exec (.w5 0x12345678) State.reset) = some (.decoded 305420144 5) ∧
    resultOf (exec (.w6 0x0102030405) State.reset) = some (.decoded 4328719613 6) ∧
    resultOf (exec (.w7 0x010203040506) State.reset) = some (.decoded 1108152157694 7) ∧
    resultOf (exec (.w8 0x01020304050607) State.reset) = some (.decoded 283686952306431 8) ∧
    resultOf (exec (.w9 0xFFFFFFFFFFFFFF07) State.reset) = some (.decoded 18446744073709551615 9) ∧
    resultOf (exec (.w9 0xFFFFFFFFFFFFFF08) State.reset) = some (.failure .overflow) := by decide

/-- V-PORT-2 and V-PORT-3: write enables. -/
theorem test_write_enables :
    enablesOf (exec .enc (st 1 0x21B 0 [0, 0, 0, 0])) = some 0b000000111 ∧
    enablesOf (exec .enc (st 1 0x1F8 0 [0, 0])) = some 0b000000000 := by decide

/-- V-PORT-8: the signals alone. -/
theorem test_port_dec :
    (PortIn.reply { op := 3, a := 7, hdr := 9, len := 3, din := #v[0xF9, 0x01, 0x23, 5, 5, 5, 5, 5, 5] }) =
      some (.decoded 0x21B 3, []) := by decide

/-- V-PORT-14: no operation, no response. -/
theorem test_unassigned_select :
    refusalOf (step (State.reset.issue { Request.zero with op := 6 })) = some (.unassignedSelect 6) := by decide

/-- 20_memory R54: an ENC over a byte that an unordered DEC reads. -/
theorem test_overlap_refused :
    refusalOf (exec .enc
      { st 1 5 0 [0] with
        req := { (st 1 5 0 [0]).req with concurrent := [{ base := 16, len := 2, writes := false }] } }) =
      some .unserializedOverlap := by decide

/-- The memory's canonical form: writing 0x00 removes the entry. -/
theorem test_memory_canonical :
    Memory.write (Memory.write [] 5 7) 5 0 = [] ∧
    Memory.write (Memory.write [] 5 7) 3 1 = [(3, 1), (5, 7)] := by decide

/-! ### Witnesses: for each statement with hypotheses, a state and operands that meet all of them -/

/-- Every row of the size table at both its bounds (30_encoding R67). -/
theorem witness_SizeRangeTable :
    ∀ row ∈ Claims.sizeTable,
      Codec.esize (BitVec.ofNat 64 row.2.2.1) = row.1 ∧ Codec.esize (BitVec.ofNat 64 row.2.2.2.1) = row.1 ∧
      ∃ t, exec .esize (st 0 (BitVec.ofNat 64 row.2.2.1) 0 []) = .next t := by
  intro row h
  refine ⟨?_, ?_, _, rfl⟩ <;> revert row <;> decide

theorem witness_EsizeMonotone :
    ∃ (s s' t t' : State) (m n : Nat), exec .esize s = .next t ∧ exec .esize s' = .next t' ∧
      t.answered (.size m) ∧ t'.answered (.size n) ∧ s.value.toNat ≤ s'.value.toNat :=
  ⟨st 0 247 0 [], st 0 248 0 [], _, _, _, _, rfl, rfl, ⟨_, rfl, rfl⟩, ⟨_, rfl, rfl⟩, by decide⟩

theorem witness_SizeOneExactlyBelowBase : ∃ s t : State, exec .esize s = .next t ∧ s.value.toNat = 0xF7 :=
  ⟨st 0 0xF7 0 [], _, rfl, rfl⟩

/-- At `t = 0`, at `t = 1` and at the largest value. -/
theorem witness_EsizeClosedForm :
    (248 : U64).toNat - 248 = 0 ∧ 1 ≤ (249 : U64).toNat - 248 ∧ 248 ≤ (0xFFFFFFFFFFFFFFFF : U64).toNat := by decide

theorem witness_DsizeDependsOnHeaderAlone :
    ∃ (s s' t t' : State) (m n : Nat), s'.header = s.header ∧ exec .dsize s = .next t ∧ exec .dsize s' = .next t' ∧
      t.answered (.size m) ∧ t'.answered (.size n) :=
  ⟨st 2 0 0xF8 [], st 2 5 0xF8 [1], _, _, _, _, rfl, rfl, rfl, ⟨_, rfl, rfl⟩, ⟨_, rfl, rfl⟩⟩

theorem witness_EveryHeaderHasOneRow : ([0, 5] : List Byte).length = payloadCount 0xF9 := by decide

theorem st_encQuiet (op : BitVec 3) (a : U64) (hdr : Byte) (bytes : List Byte) : (st op a hdr bytes).encQuiet :=
  encQuiet_of_alone rfl

theorem st_decQuiet (op : BitVec 3) (a : U64) (hdr : Byte) (bytes : List Byte) : (st op a hdr bytes).decQuiet :=
  decQuiet_of_alone rfl

theorem st_wf (op : BitVec 3) (a : U64) (hdr : Byte) (bytes : List Byte) : (st op a hdr bytes).mem.wf :=
  Memory.wf_writeBytes (by simp [Memory.wf]) 16 bytes

/-- ENC and DEC of a request of `st` answer. -/
theorem st_enc (a : U64) (bytes : List Byte) (h : Codec.esize a ≤ bytes.length) :
    exec .enc (st 1 a 0 bytes) = .next ((st 1 a 0 bytes).reply (.written (Codec.esize a)) (Codec.encoding a)) :=
  execEnc_quiet (st_encQuiet 1 a 0 bytes) h

theorem st_dec (bytes : List Byte) :
    exec .dec (st 3 0 0 bytes) =
      .next ((st 3 0 0 bytes).reply
        (decResult (Codec.dec bytes.length (st 3 0 0 bytes).bufByte)) []) :=
  execDec_quiet (st_decQuiet 3 0 0 bytes)

/-- At the last single-byte value, and at 248 in a destination of exactly two bytes. -/
theorem witness_EncWritesTheEncoding :
    (∃ s : State, s.mem.wf ∧ s.encQuiet ∧ Codec.esize s.value ≤ s.bufLen ∧ s.value.toNat = 247) ∧
    (∃ s : State, s.mem.wf ∧ s.encQuiet ∧ Codec.esize s.value ≤ s.bufLen ∧ s.value.toNat = 248) :=
  ⟨⟨st 1 247 0 [9], st_wf _ _ _ _, st_encQuiet _ _ _ _, by decide, rfl⟩, ⟨st 1 248 0 [9, 9], st_wf _ _ _ _, st_encQuiet _ _ _ _, by decide, rfl⟩⟩

/-- One byte short, and exactly enough. -/
theorem witness_EncFailsExactlyWhenShort :
    (∃ s : State, s.bufLen < Codec.esize s.value) ∧ (∃ s : State, Codec.esize s.value ≤ s.bufLen ∧ s.encQuiet) :=
  ⟨⟨st 1 504 0 [0, 0], by decide⟩, ⟨st 1 504 0 [0, 0, 0], by decide, st_encQuiet _ _ _ _⟩⟩

theorem witness_EncNeverReadsDestination :
    ∃ s s' t t' : State, s'.value = s.value ∧
      (s.bufLen < Codec.esize s.value ↔ s'.bufLen < Codec.esize s'.value) ∧
      exec .enc s = .next t ∧ exec .enc s' = .next t' :=
  ⟨st 1 248 0 [1, 2], st 1 248 0 [3, 4, 5], _, _, rfl, by decide, st_enc _ _ (by decide),
    st_enc _ _ (by decide)⟩

theorem witness_EncSingleByteWritesTheValue :
    ∃ s : State, s.mem.wf ∧ s.encQuiet ∧ s.value.toNat < 0xF8 ∧ 1 ≤ s.bufLen :=
  ⟨st 1 0xF7 0 [0], st_wf _ _ _ _, st_encQuiet _ _ _ _, by decide, by decide⟩

theorem witness_HeaderGivesBackTheSize :
    ∃ (s t : State) (n : Nat), s.mem.wf ∧ exec .enc s = .next t ∧ t.answered (.written n) ∧ 2 ≤ n :=
  ⟨st 1 504 0 [0, 0, 0], _, 3, st_wf _ _ _ _, st_enc _ _ (by decide), ⟨_, rfl, by decide⟩, by decide⟩

theorem witness_PayloadIsFixedWidth :
    248 ≤ (248 : U64).toNat ∧ 248 ≤ (504 : U64).toNat ∧ 2 ≤ Codec.esize 504 - 1 := by decide

theorem witness_EncodingIsShortest : Codec.decBuffer [0xF9, 0x00, 0x05] = .ok (253, 3) := rfl

theorem witness_RepeatingChangesNothing :
    (∃ s t u : State, s.mem.wf ∧ exec .enc s = .next t ∧ exec .enc t = .next u) ∧
    (∃ s t u : State, exec .dec s = .next t ∧ exec .dec t = .next u) :=
  ⟨⟨st 1 248 0 [1, 2], _, _, st_wf _ _ _ _, st_enc _ _ (by decide),
    execEnc_quiet (s := (st 1 248 0 [1, 2]).reply (.written (Codec.esize 248)) (Codec.encoding 248))
      (encQuiet_of_alone rfl) (by decide)⟩,
    ⟨st 3 0 0 [0x2A], _, _, st_dec _, execDec_quiet (decQuiet_of_alone rfl)⟩⟩

/-- For ENC, and for each side of the two equivalences: the extent's last byte is the buffer's first. -/
theorem witness_UnserializedOverlapRefused :
    ∃ s : State, Codec.esize s.value ≤ s.bufLen ∧
      ∃ e ∈ s.req.concurrent, e.writes = true ∧ ∃ a, s.req.base ≤ a ∧ a < s.req.base + Codec.esize s.value ∧
        a < s.req.base + Codec.decTouches s.bufLen s.bufByte ∧ e.base ≤ a ∧ a < e.base + e.len :=
  ⟨{ st 1 5 0 [0] with
      req := { (st 1 5 0 [0]).req with concurrent := [{ base := 15, len := 2, writes := true }] } },
    by decide, { base := 15, len := 2, writes := true }, by simp, rfl, 16, by decide⟩

theorem witness_DecEmptyBuffer : ∃ s : State, s.bufLen = 0 := ⟨st 3 0 0 [], rfl⟩

/-- The header alone, and one byte short. -/
theorem witness_DecShortBuffer :
    (∃ s : State, s.decQuiet ∧ 1 ≤ s.bufLen ∧ s.bufLen < Codec.dsize (s.bufByte 0) ∧ s.bufLen = 1) ∧
    (∃ s : State, s.decQuiet ∧ 1 ≤ s.bufLen ∧ s.bufLen < Codec.dsize (s.bufByte 0) ∧ s.bufLen = 8) :=
  ⟨⟨st 3 0 0 [0xF8], st_decQuiet _ _ _ _, by decide, by decide, rfl⟩,
    ⟨st 3 0 0 [0xFF, 0xFF, 0xFF, 0xFF, 0xFF, 0xFF, 0xFF, 0xFF], st_decQuiet _ _ _ _, by decide, by decide, rfl⟩⟩

theorem witness_DecSingleByte : ∃ s : State, s.decQuiet ∧ 1 ≤ s.bufLen ∧ (s.bufByte 0).toNat < 248 :=
  ⟨st 3 0 0 [0xF7], st_decQuiet _ _ _ _, by decide, by decide⟩

/-- A nine-byte source at the bound, and one above it. -/
theorem witness_DecMultiByte :
    (∃ (s : State) (size : Nat), s.decQuiet ∧ size = Codec.dsize (s.bufByte 0) ∧ 2 ≤ size ∧ size ≤ s.bufLen ∧
      s.trailingNumber size = 0xFFFFFFFFFFFFFF07) ∧
    (∃ (s : State) (size : Nat), s.decQuiet ∧ size = Codec.dsize (s.bufByte 0) ∧ 2 ≤ size ∧ size ≤ s.bufLen ∧
      s.trailingNumber size = 0xFFFFFFFFFFFFFF08) :=
  ⟨⟨st 3 0 0 [0xFF, 0xFF, 0xFF, 0xFF, 0xFF, 0xFF, 0xFF, 0xFF, 0x07], 9, st_decQuiet _ _ _ _, by decide⟩,
    ⟨st 3 0 0 [0xFF, 0xFF, 0xFF, 0xFF, 0xFF, 0xFF, 0xFF, 0xFF, 0x08], 9, st_decQuiet _ _ _ _, by decide⟩⟩

/-- An input in the set, and the largest one that is not. -/
theorem witness_OverflowSet :
    (∃ s t : State, exec .dec s = .next t ∧ s.overflowing) ∧ (∃ s t : State, exec .dec s = .next t ∧ ¬ s.overflowing) :=
  ⟨⟨st 3 0 0 [0xFF, 0xFF, 0xFF, 0xFF, 0xFF, 0xFF, 0xFF, 0xFF, 0x08], _, st_dec _, by
      unfold State.overflowing; decide⟩,
    ⟨st 3 0 0 [0xFF, 0xFF, 0xFF, 0xFF, 0xFF, 0xFF, 0xFF, 0xFF, 0x07], _, st_dec _, by
      unfold State.overflowing; decide⟩⟩

theorem witness_DecFailuresInOrder :
    (∃ s t : State, exec .dec s = .next t ∧ s.bufLen = 0) ∧
    (∃ s t : State, exec .dec s = .next t ∧ s.bufLen < Codec.dsize (s.bufByte 0) ∧ s.bufByte 0 = 0xFF) :=
  ⟨⟨st 3 0 0 [], _, st_dec _, rfl⟩,
    ⟨st 3 0 0 [0xFF, 0xFF, 0xFF, 0xFF, 0xFF, 0xFF, 0xFF, 0xFF], _, st_dec _, by decide, by decide⟩⟩

/-- V-DEC-12: 253 in three bytes. -/
theorem witness_NonMinimalAccepted :
    ∃ (s : State) (size : Nat) (x : U64), s.decQuiet ∧ 2 ≤ size ∧ size ≤ 9 ∧ x.toNat < 256 ^ (size - 1) ∧
      x.toNat ≤ 0xFFFFFFFFFFFFFF07 ∧ size ≤ s.bufLen ∧ ∀ i, i < size → s.bufByte i = (multiBytes size x).getD i 0 :=
  ⟨st 3 0 0 [0xF9, 0x00, 0x05], 3, 5, st_decQuiet _ _ _ _, by decide⟩

/-- A decode from a single byte, one from the largest header, and a value only header 0xFF reaches. -/
theorem witness_ValuesOfEachHeader :
    Codec.decBuffer [0xF7] = .ok (247, 1) ∧
    Codec.decBuffer [0xFF, 0xFF, 0xFF, 0xFF, 0xFF, 0xFF, 0xFF, 0xFF, 0x07] = .ok (0xFFFFFFFFFFFFFFFF, 9) ∧
    (248 ≤ (0xF8 : Byte).toNat ∧ (503 : U64).toNat ≤ 248 + 256 ^ (Codec.dsize 0xF8 - 1) - 1) := ⟨rfl, rfl, by decide⟩

/-- A longer buffer with the same first bytes, and a shorter one with the same first byte. -/
theorem witness_DecIgnoresTheSuffix :
    ∃ (s s' s'' t : State) (v : U64) (n : Nat), exec .dec s = .next t ∧ t.answered (.decoded v n) ∧ s'.decQuiet ∧
      n ≤ s'.bufLen ∧ (∀ i, i < n → s'.bufByte i = s.bufByte i) ∧ s''.decQuiet ∧ s''.bufLen < n ∧
      s''.bufByte 0 = s.bufByte 0 :=
  ⟨st 3 0 0 [0xF9, 0x01, 0x23], st 3 0 0 [0xF9, 0x01, 0x23, 0xAA, 0xBB], st 3 0 0 [0xF9, 0x01], _, 0x21B, 3,
    st_dec _, ⟨_, rfl, by decide⟩, st_decQuiet _ _ _ _, by decide, by decide, st_decQuiet _ _ _ _, by decide, by decide⟩

theorem witness_SignTransformInverse :
    (∃ (s t s' t' : State) (w : U64), exec .zzenc s = .next t ∧ t.answered (.unsigned w) ∧ s'.value = w ∧
      exec .zzdec s' = .next t') ∧
    (∃ (s t s' t' : State) (v : I64), exec .zzdec s = .next t ∧ t.answered (.signed v) ∧ s'.signedValue = v ∧
      exec .zzenc s' = .next t') :=
  ⟨⟨st 4 0x8000000000000000 0 [], _, st 5 0xFFFFFFFFFFFFFFFF 0 [], _, _, rfl, ⟨_, rfl, rfl⟩, by decide, rfl⟩,
    ⟨st 5 1 0 [], _, st 4 0xFFFFFFFFFFFFFFFF 0 [], _, _, rfl, ⟨_, rfl, rfl⟩, by decide, rfl⟩⟩

/-- Both ends of the range. -/
theorem witness_SmallSignedTakesOneByte :
    ((BitVec.ofInt 64 (-124)).toInt = -124) ∧ ((BitVec.ofInt 64 123).toInt = 123) := by decide

theorem witness_MultiByteRows : (0xFFFFFFFFFFFFFF07 : U64).toNat ≤ 0xFFFFFFFFFFFFFF07 := by decide

theorem witness_OnlyRowW9Overflows :
    0xFFFFFFFFFFFFFF07 < (0xFFFFFFFFFFFFFF08 : U64).toNat ∧
    ∃ (i : Instr) (s t : State), i.wellFormed ∧ 1 ≤ i.wireSize ∧ exec i s = .next t ∧ t.answered (.failure .overflow) :=
  ⟨by decide, .w9 0xFFFFFFFFFFFFFF08, State.reset, _, rfl, by decide, rfl, ⟨_, rfl, rfl⟩⟩

theorem witness_DecRunsTheRowOfItsSource :
    ∃ (s : State) (i : Instr) (rest : List Byte), s.decQuiet ∧ decodeWire s.buffer = .ok (i, rest) :=
  ⟨st 3 0 0 [0xF9, 0x01, 0x23, 0xAA], .w3 0x0123, [0xAA], st_decQuiet _ _ _ _, rfl⟩

theorem witness_DecInsufficientExactlyWhenUndecodable :
    ∃ s t : State, exec .dec s = .next t ∧ ∃ e, decodeWire s.buffer = .error e :=
  ⟨st 3 0 0 [0xF9, 0x01], _, st_dec _, .truncated, rfl⟩

theorem witness_DecodeOfEncode : (Instr.w9 0xFFFFFFFFFFFFFFFF).wellFormed ∧ 1 ≤ (Instr.w9 0).wireSize := by decide

theorem witness_EncodeOfDecode :
    decodeWire [0xF8, 0x05, 0x07] = .ok (.w2 5, [0x07]) ∧ decodeSelect 5 = .ok .zzdec := ⟨rfl, rfl⟩

theorem witness_ConcatenationParsesUniquely :
    (∀ i ∈ [Instr.w1a 0x2A, .w2 0, .w9 0xFFFFFFFFFFFFFF07], i.wellFormed = true ∧ 1 ≤ i.wireSize) ∧
    (encode (.w2 5)).bytes <+: (encode (.w2 5)).bytes := by decide

theorem witness_StepRunsTheOldestRequest :
    (∃ (s : State) (r : Request) (rest : List Request) (i : Instr), s.pending = r :: rest ∧
      decodeSelect r.op = .ok i) ∧ State.reset.pending = [] :=
  ⟨⟨State.reset.issue (Script.dsize 0xFF), _, _, .dsize, rfl, rfl⟩, rfl⟩

theorem witness_UnassignedSelectRefused :
    ∃ (s : State) (r : Request) (rest : List Request), s.pending = r :: rest ∧ (r.op = 6 ∨ r.op = 7) :=
  ⟨State.reset.issue { Request.zero with op := 7 }, _, _, rfl, .inr rfl⟩

theorem witness_StepRefusesOnlyInadmissible : ∃ (s : State) (why : Refusal), step s = .refused why :=
  ⟨State.reset.issue { Request.zero with op := 6 }, _, rfl⟩

theorem witness_StepAnswersAdmitted :
    ∃ (s : State) (r : Request) (rest : List Request), s.pending = r :: rest ∧ r.admitted :=
  ⟨State.reset.issue (Script.zzdec 1), _, _, rfl, by decide, rfl⟩

theorem witness_FrameOfEveryInstruction :
    (∃ (s t : State), s.mem.wf ∧ exec .enc s = .next t ∧ t.answered (.written 2)) ∧
    (∃ (s t : State), s.mem.wf ∧ exec .dec s = .next t ∧ ∀ n, ¬ t.answered (.written n)) :=
  ⟨⟨st 1 248 0 [1, 2], _, st_wf _ _ _ _, st_enc _ _ (by decide), ⟨_, rfl, by decide⟩⟩,
    ⟨st 3 0 0 [0x2A], _, st_wf _ _ _ _, st_dec _, by
      rintro n ⟨p, hp, h⟩
      cases hp
      cases h⟩⟩

theorem witness_StepKeepsInvariant : ∃ s t : State, s.Inv ∧ step s = .next t ∧ t.response.isSome :=
  ⟨State.reset.issue (Script.esize 248), _,
    ⟨Memory.wf_writeBytes (m := []) (by simp [Memory.wf]) 0 [], by simp⟩, rfl, rfl⟩

theorem witness_ExecKeepsInvariant :
    ∃ (i : Instr) (s t : State), i.wellFormed ∧ s.Inv ∧ exec i s = .next t ∧ 2 ≤ i.wireSize :=
  ⟨.w2 5, State.reset, _, rfl, ⟨by simp [Memory.wf], by simp⟩, rfl, by decide⟩

theorem witness_FirstOperationIsLikeAnyOther :
    ∃ (r : Request) (s t t' : State) (q : Result), s.mem = [] ∧ s.pending = [] ∧
      step (State.reset.issue r) = .next t ∧ step (s.issue r) = .next t' ∧ t.answered q ∧ s.response.isSome :=
  ⟨Script.esize 248, State.reset.reply (.size 1) [], _, _, _, rfl, rfl, rfl, rfl, ⟨_, rfl, rfl⟩, rfl⟩

/-- DEC of buffers that lie at different addresses; ENC into destinations with other contents; two DSIZE. -/
theorem witness_AnswerDependsOnOperandsAlone :
    (∃ (s s' t t' : State), State.sameOperands .dec s s' ∧ exec .dec s = .next t ∧ exec .dec s' = .next t' ∧
      s'.req.base ≠ s.req.base) ∧
    (∃ (s s' t t' : State), State.sameOperands .enc s s' ∧ exec .enc s = .next t ∧ exec .enc s' = .next t') ∧
    (∃ (s s' t t' : State), State.sameOperands .dsize s s' ∧ exec .dsize s = .next t ∧ exec .dsize s' = .next t') :=
  ⟨⟨st 3 0 0 [0x2A, 1],
      { st 3 0 0 [7, 0x2A, 2] with req := { (st 3 0 0 [7, 0x2A, 2]).req with base := 17, len := 2 } }, _, _,
      ⟨rfl, by decide⟩, st_dec _, execDec_quiet (decQuiet_of_alone rfl), by decide⟩,
    ⟨st 1 248 0 [1, 2], st 1 248 0 [3, 4], _, _, ⟨rfl, rfl⟩, st_enc _ _ (by decide), st_enc _ _ (by decide)⟩,
    ⟨st 2 1 0xF8 [], st 2 2 0xF8 [3], _, _, rfl, rfl, rfl⟩⟩

theorem witness_WhoReportsWhichError :
    (∃ s t : State, Instr.enc.wireSize = 0 ∧ exec .enc s = .next t ∧ s.bufLen < Codec.esize s.value) ∧
    (∃ s t : State, Instr.dec.wireSize = 0 ∧ exec .dec s = .next t ∧ s.overflowing) :=
  ⟨⟨st 1 248 0 [1], _, rfl, execEnc_short (s := st 1 248 0 [1]) (by decide), by decide⟩,
    ⟨st 3 0 0 [0xFF, 0xFF, 0xFF, 0xFF, 0xFF, 0xFF, 0xFF, 0xFF, 0x08], _, rfl, st_dec _, by
      unfold State.overflowing; decide⟩⟩

/-- Two ENC on neighbouring buffers, and two DEC on one buffer. -/
theorem witness_DisjointRequestsCommute :
    State.reset.mem.wf ∧
    (∃ r q : Request, r.admitted ∧ q.admitted ∧ r.commutesWith q ∧ r.op = 1 ∧ q.op = 1) ∧
    (∃ r q : Request, r.admitted ∧ q.admitted ∧ r.commutesWith q ∧ r.op = 3 ∧ q.op = 3 ∧ r.base = q.base) :=
  ⟨by simp [Memory.wf],
    ⟨Script.enc 248 ⟨0, 2⟩, Script.enc 504 ⟨2, 3⟩, ⟨by decide, rfl⟩, ⟨by decide, rfl⟩,
      .inr (.inl (.inl (by decide))), rfl, rfl⟩,
    ⟨Script.dec ⟨0, 2⟩, Script.dec ⟨0, 2⟩, ⟨by decide, rfl⟩, ⟨by decide, rfl⟩, .inl (by decide), rfl, rfl, rfl⟩⟩

theorem witness_RoundTrip :
    ∃ (s : State) (r q : Request) (rest : List Request), s.mem.wf ∧ s.pending = r :: q :: rest ∧ r.op = 1 ∧ q.op = 3 ∧
      q.base = r.base ∧ r.concurrent = [] ∧ q.concurrent = [] ∧ Codec.esize r.a ≤ r.len ∧ Codec.esize r.a ≤ q.len :=
  ⟨(State.reset.issue (Script.enc 0xFFFFFFFFFFFFFFFF ⟨4, 9⟩)).issue (Script.dec ⟨4, 11⟩), _, _, _,
    by simp [Memory.wf], rfl, rfl, rfl, rfl, rfl, rfl, by decide, by decide⟩

/-- 95_test_vectors P2. -/
theorem witness_SignedRoundTrip :
    ∃ (s : State) (v : I64) (b : View), s.mem.wf ∧ Codec.esize (Codec.zzenc v) ≤ b.len ∧
      s.pending = Script.senc v b ++ [Script.dec b] :=
  ⟨{ State.reset with pending := Script.senc 0xFFFFFFFFFFFFFED4 ⟨0, 3⟩ ++ [Script.dec ⟨0, 3⟩] }, 0xFFFFFFFFFFFFFED4,
    ⟨0, 3⟩, by simp [Memory.wf], by decide, rfl⟩

/-- Every row of the signed table at its four bounds. -/
theorem witness_SignedSizeTable :
    ∀ row ∈ Claims.signedTable,
      Codec.esize (Codec.zzenc (BitVec.ofInt 64 row.2.1.1)) = row.1 ∧
      Codec.esize (Codec.zzenc (BitVec.ofInt 64 row.2.1.2)) = row.1 ∧
      Codec.esize (Codec.zzenc (BitVec.ofInt 64 row.2.2.1)) = row.1 ∧
      Codec.esize (Codec.zzenc (BitVec.ofInt 64 row.2.2.2)) = row.1 := by decide

/-- 95_test_vectors P5: a non-minimal source, and a canonical one. -/
theorem witness_DecThenEnc :
    Codec.decBuffer [0xF9, 0x00, 0x05] = .ok (253, 3) ∧ Codec.decBuffer [0xF8, 0x05] = .ok (253, 2) ∧
    Codec.esize 253 ≤ ([0, 0, 0] : List Byte).length := ⟨rfl, rfl, by decide⟩

theorem witness_MachineMeetsAbstractLevel :
    (∃ s t : State, s.mem.wf ∧ exec .enc s = .next t) ∧ (∃ s t : State, exec .dec s = .next t) :=
  ⟨⟨st 1 248 0 [1, 2, 3], _, st_wf _ _ _ _, st_enc _ _ (by decide)⟩,
    ⟨st 3 0 0 [0x2A], _, st_dec _⟩⟩

theorem witness_PortGivesTheMachinesSignals :
    ∃ (i : Instr) (s t : State), decodeSelect s.req.op = .ok i ∧ exec i s = .next t :=
  ⟨.dec, st 3 0 0 [0x2A], _, rfl, st_dec _⟩

/-- For each clause: two inputs that agree only where the operation looks. -/
theorem witness_PortIgnoresUnusedInputs :
    let p : PortIn := { op := 3, a := 1, hdr := 2, len := 1, din := #v[0x2A, 1, 1, 1, 1, 1, 1, 1, 1] }
    let q : PortIn := { op := 3, a := 9, hdr := 8, len := 1, din := #v[0x2A, 7, 7, 7, 7, 7, 7, 7, 7] }
    q.op = p.op ∧ q.len = p.len ∧ (∀ i, i < Codec.decTouches p.len p.byte → q.byte i = p.byte i) ∧
      ({ p with op := 0 } : PortIn).op = 0 ∧ ({ p with op := 1 } : PortIn).op = 1 ∧
      ({ p with op := 2 } : PortIn).op = 2 := by decide

/-- A count at each end of its range. -/
theorem witness_StatusAndCountLines :
    ({ result := .size 9, stored := [], draw := 0 } : Response).coherent ∧
    ({ result := .decoded 0 1, stored := [], draw := 0 } : Response).coherent :=
  ⟨⟨⟨by decide, by decide⟩, rfl⟩, ⟨⟨by decide, by decide, by decide⟩, rfl⟩⟩

theorem witness_WriteEnablesAreTheWrite :
    ∃ (i : Instr) (s t : State) (p : Response), s.mem.wf ∧ exec i s = .next t ∧ t.response = some p ∧
      p.result = .written 3 :=
  ⟨.enc, st 1 0x21B 0 [1, 2, 3, 4], _, _, st_wf _ _ _ _, st_enc _ _ (by decide), rfl, by decide⟩

end Sys2Proof.Tests
end

section
/-! The port rendering (10_state R27 to R32): what each select code's reply is a function of, and what a response's
write enables and lanes make of the destination. -/

namespace Sys2Proof.Machine

/-! ### The reply of each select code -/

variable {p : PortIn}

theorem PortIn.reply_of_op_esize (h : p.op = 0) : p.reply = some (.size (Codec.esize p.a), []) := by
  simp [PortIn.reply, h]

theorem PortIn.reply_of_op_enc (h : p.op = 1) : p.reply = some (encReply p.a p.len) := by
  simp [PortIn.reply, h]

theorem PortIn.reply_of_op_dsize (h : p.op = 2) : p.reply = some (.size (Codec.dsize p.hdr), []) := by
  simp [PortIn.reply, h]

theorem PortIn.reply_of_op_dec (h : p.op = 3) : p.reply = some (decResult (Codec.dec p.len p.byte), []) := by
  simp [PortIn.reply, h]

theorem PortIn.reply_of_op_zzenc (h : p.op = 4) : p.reply = some (.unsigned (Codec.zzenc p.a), []) := by
  simp [PortIn.reply, h]

theorem PortIn.reply_of_op_zzdec (h : p.op = 5) : p.reply = some (.signed (Codec.zzdec p.a), []) := by
  simp [PortIn.reply, h]

/-- The response signals depend on the inputs through the reply alone. -/
theorem PortIn.respond_congr {q : PortIn} (h : q.reply = p.reply) (n : Nat) : q.respond n = p.respond n := by
  rw [PortIn.respond, PortIn.respond, h]

/-! ### Write enables and lanes of a response -/

variable (r : Response) {k : Nat}

@[simp] theorem Response.signals_we : r.signals.we = r.enables := rfl

/-- Enable `k` is set exactly when the response stores a byte at index `k` (10_state R30). -/
theorem Response.we_getLsbD (hk : k < 9) : r.signals.we.getLsbD k = decide (k < r.stored.length) := by
  rw [Response.signals_we, Response.enables, BitVec.getLsbD_ofNat, Nat.testBit_two_pow_sub_one, decide_eq_true hk,
    Bool.true_and]

theorem Response.we_of_stored_nil (h : r.stored = []) : r.signals.we = 0 := by
  simp [Response.enables, h]

theorem Response.dout_getElem? (hk : k < 9) : r.signals.dout[k]? = some (r.lane k) := by
  interval_cases k <;> rfl

/-- A lane whose byte is stored holds that byte, and no free value. -/
theorem Response.lane_of_lt (h : k < r.stored.length) (d : Byte) : r.lane k = r.stored.getD k d := by
  simp [Response.lane, List.getD_eq_getElem?_getD, h]

/-- What the consumer makes of byte `k`: the stored byte where there is one, else the byte it had. -/
theorem Response.signals_storedByte (hk : k < 9) (old : Byte) :
    r.signals.storedByte k old = r.stored.getD k old := by
  rw [Signals.storedByte, r.we_getLsbD hk, r.dout_getElem? hk, Option.getD_some]
  by_cases h : k < r.stored.length
  · rw [if_pos (decide_eq_true h), r.lane_of_lt h old]
  · rw [if_neg (by simpa using h), List.getD_eq_default _ _ (Nat.not_lt.1 h)]

/-- What a reply makes of byte `k` of the buffer operand: the stored byte where there is one, else the byte it had. -/
theorem bufByte_reply {s : State} (hwf : s.mem.wf) (res : Result) (bs : List Byte) (k : Nat) :
    (s.reply res bs).bufByte k = bs.getD k (s.bufByte k) := by
  rw [State.bufByte, reply_req, reply_mem, Memory.read_writeBytes hwf, Nat.add_sub_cancel_left]
  by_cases h : k < bs.length
  · rw [if_pos (by omega), List.getD_eq_getElem _ _ h, List.getD_eq_getElem _ _ h]
  · rw [if_neg (by omega), List.getD_eq_default _ _ (Nat.not_lt.1 h), State.bufByte]

end Sys2Proof.Machine

namespace Sys2Proof.Proofs

open Sys2Proof.Machine

/-- Settles O58: for each select code the reply is a function of the operands the clause names; for DEC that is
`dec_congr`. -/
theorem portIgnoresUnusedInputs : Obligations.PortIgnoresUnusedInputs := by
  intro p q n hop
  refine ⟨?_, ?_, ?_, ?_⟩
  · intro hp ha
    apply PortIn.respond_congr
    rcases hp with hp | hp | hp
    · rw [PortIn.reply_of_op_esize hp, PortIn.reply_of_op_esize (hop.trans hp), ha]
    · rw [PortIn.reply_of_op_zzenc hp, PortIn.reply_of_op_zzenc (hop.trans hp), ha]
    · rw [PortIn.reply_of_op_zzdec hp, PortIn.reply_of_op_zzdec (hop.trans hp), ha]
  · intro hp ha hlen
    apply PortIn.respond_congr
    rw [PortIn.reply_of_op_enc hp, PortIn.reply_of_op_enc (hop.trans hp), ha, hlen]
  · intro hp hhdr
    apply PortIn.respond_congr
    rw [PortIn.reply_of_op_dsize hp, PortIn.reply_of_op_dsize (hop.trans hp), hhdr]
  · intro hp hlen hbytes
    apply PortIn.respond_congr
    have hdec : Codec.dec q.len q.byte = Codec.dec p.len p.byte := dec_congr (.inl hlen) hbytes
    rw [PortIn.reply_of_op_dec hp, PortIn.reply_of_op_dec (hop.trans hp), hdec]

/-- Settles O60: an answer is a reply that stores nothing, or ENC's that stores the encoding (`exec_next`); the consumer
and the machine make the same of every byte of the buffer. -/
theorem writeEnablesAreTheWrite : Obligations.WriteEnablesAreTheWrite := by
  intro i s t p hwf hexec hresp
  obtain ⟨res, bs, rfl, hcases⟩ := exec_next hexec
  obtain rfl : Response.mk res bs s.draws = p := Option.some.inj hresp
  refine ⟨?_, ?_, ?_⟩
  · rintro n rfl
    rcases hcases with ⟨-, hnot⟩ | ⟨-, hsize, rfl⟩
    · exact absurd rfl (hnot n)
    · obtain rfl : n = Codec.esize s.value := Result.written.inj hsize
      have hlen : (Codec.encoding s.value).length = Codec.esize s.value := length_encoding s.value
      constructor
      · intro k hk
        rw [Response.we_getLsbD _ hk, hlen]
      · intro k hk
        have hk9 : k < 9 := Nat.lt_of_lt_of_le hk (esize_le s.value)
        rw [Response.dout_getElem? _ hk9, Response.lane_of_lt _ (hlen.symm ▸ hk) 0]
  · intro hnot
    rcases hcases with ⟨hnil, -⟩ | ⟨-, hsize, -⟩
    · exact Response.we_of_stored_nil _ hnil
    · exact absurd hsize (hnot _)
  · intro k hk
    rw [bufByte_reply hwf, Response.signals_storedByte _ hk]

end Sys2Proof.Proofs
end

section
/-! The encoding (30_encoding R65 to R68, R76): the rows of the size table, what a reply makes of memory, and DEC of a
whole buffer by its header and payload. -/

namespace Sys2Proof.Machine

/-! ### The size table -/

/-- ESIZE, when it answers, replies with the size. -/
theorem execEsize_next {s t : State} (h : exec .esize s = .next t) : t = s.reply (.size (Codec.esize s.value)) [] :=
  (Host.Outcome.next.inj h).symm

/-- A value has a row's size exactly when it lies between the row's bounds (30_encoding R67). -/
theorem esize_eq_iff_of_mem_sizeTable {size header lo hi tlo thi : Nat}
    (h : (size, header, lo, hi, tlo, thi) ∈ Claims.sizeTable) (v : U64) :
    Codec.esize v = size ↔ lo ≤ v.toNat ∧ v.toNat ≤ hi := by
  have hv := v.isLt
  have hcases := esize_cases v
  simp only [Claims.sizeTable, List.cons_append, List.nil_append, List.mem_cons, List.not_mem_nil, or_false,
    Prod.mk.injEq] at h
  rcases h with h | h | h | h | h | h | h | h | h <;> obtain ⟨rfl, -, rfl, rfl, -, -⟩ := h <;> omega

/-- The columns of a multi-byte row: the header is BASE + (size - 2), the bounds of `t` are those of the value less
BASE (30_encoding R66, R67). -/
theorem sizeTable_columns : ∀ row ∈ Claims.sizeTable, 2 ≤ row.1 →
    row.2.1 = 248 + (row.1 - 2) ∧ 248 ≤ row.2.2.1 ∧
      row.2.2.1 - 248 = row.2.2.2.2.1 ∧ row.2.2.2.1 - 248 = row.2.2.2.2.2 := by
  decide

/-! ### What a reply makes of memory -/

/-- Inside the stored bytes the buffer operand holds them. -/
theorem bufByte_reply_of_lt {s : State} (hwf : s.mem.wf) (res : Result) {bs : List Byte} {k : Nat}
    (hk : k < bs.length) : (s.reply res bs).bufByte k = bs.getD k 0 := by
  rw [bufByte_reply hwf, List.getD_eq_getElem _ _ hk, List.getD_eq_getElem _ _ hk]

/-- Outside the stored bytes memory reads as before. -/
theorem sameMemoryOutside_reply {s : State} (hwf : s.mem.wf) (res : Result) (bs : List Byte) :
    s.sameMemoryOutside (s.reply res bs) bs.length := by
  intro a ha
  rw [reply_mem, Memory.read_writeBytes hwf, if_neg (by omega)]

/-! ### DEC of a multi-byte encoding -/

/-- The accumulator DEC builds from the buffer operand is its exact trailing number. -/
theorem trailing_eq_trailingNumber (s : State) {size : Nat} (h : size ≤ 9) :
    (trailing ((List.range' 1 (size - 1)).map s.bufByte)).toNat = s.trailingNumber size := by
  rw [trailing_toNat _ (by simp; omega), State.trailingNumber, List.range'_eq_map_range, List.map_map]
  simp only [Function.comp_def, Nat.add_comm 1]

/-- The trailing number fits the payload (30_encoding R65). -/
theorem trailingNumber_lt (s : State) (size : Nat) : s.trailingNumber size < 256 ^ (size - 1) := by
  simpa [State.trailingNumber] using bigEndian_lt ((List.range (size - 1)).map fun i => s.bufByte (i + 1))

/-- DEC of a source that holds all of a multi-byte encoding ends with its trailing number. -/
theorem dec_multiByte {len : Nat} {f : Nat → Byte} (h2 : 2 ≤ Codec.dsize (f 0)) (hlen : Codec.dsize (f 0) ≤ len) :
    Codec.dec len f =
      Codec.finish (trailing ((List.range' 1 (Codec.dsize (f 0) - 1)).map f)) (Codec.dsize (f 0)) := by
  have h1 := dsize_eq_one_iff (f 0)
  rcases dec_cases len f with ⟨h0, -⟩ | ⟨-, hshort, -⟩ | ⟨-, hsingle, -⟩ | ⟨-, -, h⟩
  · omega
  · omega
  · omega
  · exact h

/-! ### DEC of a whole buffer -/

/-- What a successful DEC of a whole buffer gives: a single-byte header itself, or BASE more than the number of the
payload (30_encoding R64, R65). -/
theorem decBuffer_cons_ok {header : Byte} {payload : List Byte} {v : U64} {n : Nat}
    (h : Codec.decBuffer (header :: payload) = .ok (v, n)) :
    (header.toNat < 248 ∧ v.toNat = header.toNat ∧ n = 1) ∨
      (248 ≤ header.toNat ∧ v.toNat = bigEndian (payload.take (Codec.dsize header - 1)) + 248 ∧
        n = Codec.dsize header) := by
  have hle := dsize_le header
  have h1 := dsize_eq_one_iff header
  rw [decBuffer_cons] at h
  split_ifs at h with hshort hone
  · simp only [Except.ok.injEq, Prod.mk.injEq] at h
    obtain ⟨rfl, rfl⟩ := h
    have := header.isLt
    exact .inl ⟨h1.1 hone, by simp; omega, rfl⟩
  · have ht := trailing_toNat (payload.take (Codec.dsize header - 1)) (by simp; omega)
    rcases finish_cases (trailing (payload.take (Codec.dsize header - 1))) (Codec.dsize header) with
      ⟨-, w, hw, e⟩ | ⟨-, e⟩ <;> rw [e] at h
    · simp only [Except.ok.injEq, Prod.mk.injEq] at h
      obtain ⟨rfl, rfl⟩ := h
      exact .inr ⟨by omega, by omega, rfl⟩
    · cases h

/-- A multi-byte header followed by the payload of a trailing value that fits it ends with that value. -/
theorem decBuffer_beBytes {header : Byte} {t : U64} (hb : 248 ≤ header.toNat)
    (ht : t.toNat < 256 ^ (Codec.dsize header - 1)) :
    Codec.decBuffer (header :: beBytes (Codec.dsize header - 1) t) = Codec.finish t (Codec.dsize header) := by
  have hle := dsize_le header
  have h1 := dsize_eq_one_iff header
  rw [decBuffer_cons, if_neg (by simp), if_neg (by omega), List.take_of_length_le (by simp),
    trailing_beBytes (by omega) ht]

/-- A value below BASE is decoded from the single byte that holds it alone (30_encoding R68). -/
theorem decBuffer_ok_below_base {b : List Byte} {v : U64} {n : Nat} (hv : v.toNat < 248)
    (h : Codec.decBuffer b = .ok (v, n)) : b.take n = [v.setWidth 8] := by
  cases b with
  | nil => cases h
  | cons header payload =>
    rcases decBuffer_cons_ok h with ⟨-, hval, rfl⟩ | ⟨-, hval, -⟩
    · have hheader : header = v.setWidth 8 := by
        apply BitVec.eq_of_toNat_eq
        rw [BitVec.toNat_setWidth]
        omega
      rw [List.take_succ_cons, List.take_zero, hheader]
    · omega

/-! ### Unassigned select codes -/

/-- A step refuses the oldest request when its select code names no operation (30_encoding R76). -/
theorem step_of_decodeSelect_error {s : State} {r : Request} {rest : List Request} {e : DecodeError}
    (hp : s.pending = r :: rest) (hd : decodeSelect r.op = .error e) :
    step s = .refused (.unassignedSelect r.op) := by
  simp only [step, State.present?, hp, hd]

end Sys2Proof.Machine

namespace Sys2Proof.Proofs

open Sys2Proof.Machine

/-- Settles O2: ESIZE answers a row's size exactly on its values (`esize_eq_iff_of_mem_sizeTable`), and the encoding's
first byte is a function of the size or the value (`encoding_first`). -/
theorem sizeRangeTable : Obligations.SizeRangeTable := by
  intro s t hexec size header lo hi tlo thi hrow
  obtain rfl := execEsize_next hexec
  have hanswer : (s.reply (.size (Codec.esize s.value)) []).answered (.size size) ↔ Codec.esize s.value = size := by
    rw [answered_reply, Result.size.injEq]
  have hrange := esize_eq_iff_of_mem_sizeTable hrow s.value
  have hcolumns : 2 ≤ size → header = 248 + (size - 2) ∧ 248 ≤ lo ∧ lo - 248 = tlo ∧ hi - 248 = thi :=
    sizeTable_columns _ hrow
  have hfirst : ((Codec.encoding s.value).headD 0).toNat =
      if s.value.toNat < 248 then s.value.toNat else 248 + (Codec.esize s.value - 2) := by
    rw [← encoding_first, List.headD_eq_head?_getD, List.head?_eq_getElem?, List.getD_eq_getElem?_getD]
  have hone := esize_eq_one_iff s.value
  rw [hanswer]
  refine ⟨hrange, fun h2 => (hcolumns h2).2.2, ?_, ?_⟩
  · intro h2 hsize
    obtain ⟨hheader, hbase, htlo, hthi⟩ := hcolumns h2
    obtain ⟨hlo, hhi⟩ := hrange.1 hsize
    rw [hfirst, if_neg (by omega)]
    omega
  · intro h1 hsize
    rw [hfirst, if_pos (by omega)]

/-- Settles O9: ENC's reply stores the encoding, whose bytes are `encoding_first` and `encoding_payload`. -/
theorem encWritesTheEncoding : Obligations.EncWritesTheEncoding := by
  intro s hwf hquiet hfits
  have hlen := length_encoding s.value
  have hpos := esize_pos s.value
  have hone := esize_eq_one_iff s.value
  have hbyte : ∀ k, k < Codec.esize s.value →
      (s.reply (.written (Codec.esize s.value)) (Codec.encoding s.value)).bufByte k =
        (Codec.encoding s.value).getD k 0 :=
    fun k hk => bufByte_reply_of_lt hwf _ (hlen.symm ▸ hk)
  have hfirst := encoding_first s.value
  refine ⟨_, _, execEnc_quiet hquiet hfits, rfl, rfl, hlen, ⟨rfl, rfl⟩, ?_, ?_, ?_⟩
  · intro hv
    rw [hbyte 0 hpos, hfirst, if_pos hv]
    exact ⟨hone.2 hv, rfl⟩
  · intro hv
    refine ⟨?_, ?_⟩
    · rw [hbyte 0 hpos, hfirst, if_neg (by omega)]
    · intro i h1 hi
      rw [hbyte i (by omega), encoding_payload s.value i hv h1 hi]
  · rw [← hlen]
    exact sameMemoryOutside_reply hwf _ _

/-- Settles O21: DEC ends with the trailing number (`dec_multiByte`), which passes the bound only when it has eight
bytes. -/
theorem decMultiByte : Obligations.DecMultiByte := by
  rintro s size hquiet rfl h2 hlen
  have h9 := dsize_le (s.bufByte 0)
  have hnum := trailing_eq_trailingNumber s h9
  have hexec : exec .dec s = .next (s.reply (decResult (Codec.dec s.bufLen s.bufByte)) []) := execDec_quiet hquiet
  rw [dec_multiByte h2 hlen] at hexec
  rcases finish_cases (trailing ((List.range' 1 (Codec.dsize (s.bufByte 0) - 1)).map s.bufByte))
    (Codec.dsize (s.bufByte 0)) with ⟨hle, v, hv, hfin⟩ | ⟨hgt, hfin⟩
  · rw [hfin] at hexec
    exact ⟨fun _ => ⟨_, v, hexec, repliedOnly_reply s _, by omega⟩, fun hover => absurd hover (by omega)⟩
  · rw [hfin] at hexec
    have hsize : Codec.dsize (s.bufByte 0) = 9 := by
      by_contra hne
      have hpow : 256 ^ (Codec.dsize (s.bufByte 0) - 1) ≤ 256 ^ 7 := Nat.pow_le_pow_right (by omega) (by omega)
      have := trailingNumber_lt s (Codec.dsize (s.bufByte 0))
      omega
    exact ⟨fun hle => absurd hle (by omega), fun _ => ⟨hsize, _, hexec, repliedOnly_reply s _⟩⟩

/-- Settles O25: the values are those of `decBuffer_cons_ok`; each is attained by the payload of the value less BASE. -/
theorem valuesOfEachHeader : Obligations.ValuesOfEachHeader := by
  refine ⟨?_, ?_, ?_⟩
  · intro h payload v n hdec
    rcases decBuffer_cons_ok hdec with ⟨hb, hv, -⟩ | ⟨hb, hv, -⟩
    · exact ⟨fun _ => hv, by omega, by omega⟩
    · have hlt := bigEndian_lt (payload.take (Codec.dsize h - 1))
      have hpow : 256 ^ (payload.take (Codec.dsize h - 1)).length ≤ 256 ^ (Codec.dsize h - 1) :=
        Nat.pow_le_pow_right (by omega) (by simp)
      exact ⟨by omega, by omega, by omega⟩
  · intro h v hb hv hbound
    have hsub := sub_base_toNat v hv
    have hfits : (v - BitVec.ofNat 64 Config.BASE).toNat < 256 ^ (Codec.dsize h - 1) := by
      by_cases hff : h.toNat < 255
      · have := hbound hff
        have : 0 < 256 ^ (Codec.dsize h - 1) := by positivity
        omega
      · obtain rfl : h = 0xFF := BitVec.eq_of_toNat_eq (by have := h.isLt; simp; omega)
        exact (v - BitVec.ofNat 64 Config.BASE).isLt
    refine ⟨beBytes (Codec.dsize h - 1) (v - BitVec.ofNat 64 Config.BASE), ?_⟩
    rw [decBuffer_beBytes hb hfits]
    rcases finish_cases (v - BitVec.ofNat 64 Config.BASE) (Codec.dsize h) with ⟨-, w, hw, hfin⟩ | ⟨hover, -⟩
    · obtain rfl : w = v := BitVec.eq_of_toNat_eq (by omega)
      exact hfin
    · have := v.isLt
      omega
  · intro b b' v n n' hv hdec hdec'
    rw [decBuffer_ok_below_base (by omega) hdec, decBuffer_ok_below_base (by omega) hdec']

/-- Settles O41: the decoder of select codes takes neither 6 nor 7. -/
theorem unassignedSelectRefused : Obligations.UnassignedSelectRefused := by
  intro s r rest hp hop
  have h6 : 6 ≤ r.op.toNat := by
    rcases hop with h | h <;> rw [h] <;> decide
  rcases decodeSelect_cases r.op with ⟨hlt, -⟩ | ⟨-, hd⟩
  · omega
  · exact step_of_decodeSelect_error hp hd

end Sys2Proof.Proofs
end

section
/-! The size calculator (40_size_calculator R92 to R95): what ESIZE answers, and the size as a logarithm, from the two
bounds of the payload `esize_fits` and `esize_tight`. -/

namespace Sys2Proof.Machine

/-! ### What ESIZE answers -/

/-- ESIZE, when it answers, answers the size of its operand and nothing else. -/
theorem answered_size_iff_of_esize {s t : State} (h : exec .esize s = .next t) (n : Nat) :
    t.answered (.size n) ↔ Codec.esize s.value = n := by
  rw [execEsize_next h, answered_reply, Result.size.injEq]

/-! ### The size as a function of the value -/

/-- The size is monotonic (40_size_calculator R93): the trailing value of the larger value fits its payload, so the
smaller value needs no longer one. -/
theorem esize_mono {v w : U64} (h : v.toNat ≤ w.toNat) : Codec.esize v ≤ Codec.esize w := by
  by_contra hlt
  have hw := esize_pos w
  have hv1 := esize_eq_one_iff v
  have hw1 := esize_eq_one_iff w
  have hfits := esize_fits w (by omega)
  have htight := esize_tight v (by omega)
  have hpow : 256 ^ (Codec.esize w - 1) ≤ 256 ^ (Codec.esize v - 2) := Nat.pow_le_pow_right (by omega) (by omega)
  omega

/-- A value of at least BASE takes at least two bytes (40_size_calculator R95). -/
theorem two_le_esize {v : U64} (h : 248 ≤ v.toNat) : 2 ≤ Codec.esize v := by
  have hpos := esize_pos v
  have hone := esize_eq_one_iff v
  omega

/-- BASE itself, whose trailing value is 0, takes two bytes. -/
theorem esize_eq_two_of_trailing_zero {v : U64} (h : 248 ≤ v.toNat) (ht : v.toNat - 248 = 0) :
    Codec.esize v = 2 := by
  rcases (two_le_esize h).eq_or_lt with h2 | h3
  · exact h2.symm
  · have htight := esize_tight v h3
    have hpos : 0 < 256 ^ (Codec.esize v - 2) := by positivity
    omega

/-- The closed form for a trailing value of at least 1: the payload's bounds are those of the floor of a logarithm. -/
theorem esize_eq_two_add_log {v : U64} (ht : 1 ≤ v.toNat - 248) :
    Codec.esize v = 2 + Nat.log 256 (v.toNat - 248) := by
  have h : 248 ≤ v.toNat := by omega
  have h2 := two_le_esize h
  have hlower : 256 ^ (Codec.esize v - 2) ≤ v.toNat - 248 := by
    rcases h2.eq_or_lt with heq | h3
    · rw [← heq]
      exact ht
    · exact esize_tight v h3
  have hupper : v.toNat - 248 < 256 ^ (Codec.esize v - 2 + 1) := by
    rw [show Codec.esize v - 2 + 1 = Codec.esize v - 1 by omega]
    exact esize_fits v h
  have hlog := Nat.log_eq_of_pow_le_of_lt_pow hlower hupper
  omega

end Sys2Proof.Machine

namespace Sys2Proof.Proofs

open Sys2Proof.Machine

/-- Settles O3: the answers are the sizes of the two operands, and the size is monotonic (`esize_mono`). -/
theorem esizeMonotone : Obligations.EsizeMonotone := by
  intro s s' t t' m n hexec hexec' hm hn hle
  rw [← (answered_size_iff_of_esize hexec m).1 hm, ← (answered_size_iff_of_esize hexec' n).1 hn]
  exact esize_mono hle

/-- Settles O5: the logarithm is `esize_eq_two_add_log`; a positive number has one digit more than its logarithm, and
0, which has none, is where the larger of 1 and the count matters. -/
theorem esizeClosedForm : Obligations.EsizeClosedForm := by
  intro v hv
  refine ⟨esize_eq_two_of_trailing_zero hv, esize_eq_two_add_log, ?_⟩
  rcases Nat.eq_zero_or_pos (v.toNat - 248) with hzero | hpos
  · rw [esize_eq_two_of_trailing_zero hv hzero, hzero]
    simp
  · have hlog := esize_eq_two_add_log hpos
    have hdigits := Nat.length_digits 256 (v.toNat - 248) (by omega) (by omega)
    have hle := esize_le v
    omega

/-- Settles O4: the answer is the size of the operand, which is 1 exactly below BASE (`esize_eq_one_iff`). -/
theorem sizeOneExactlyBelowBase : Obligations.SizeOneExactlyBelowBase := by
  intro s t hexec
  rw [answered_size_iff_of_esize hexec]
  exact esize_eq_one_iff s.value

end Sys2Proof.Proofs
end

section
/-! The encoder (41_encoder R101 to R109): what ENC can answer, the canonical encoding by its header and payload, and
the bounds that make its payload the shortest. -/

namespace Sys2Proof.Machine

open Config

/-! ### What ENC can answer -/

/-- ENC, when it answers, fails for a destination shorter than the size and else stores the encoding. -/
theorem execEnc_next {s t : State} (h : exec .enc s = .next t) :
    (s.bufLen < Codec.esize s.value ∧ t = s.fail .insufficientBuffer) ∨
      (Codec.esize s.value ≤ s.bufLen ∧
        t = s.reply (.written (Codec.esize s.value)) (Codec.encoding s.value)) := by
  simp only [exec] at h
  rcases Nat.lt_or_ge s.bufLen (Codec.esize s.value) with hshort | hfits
  · rw [execEnc_short hshort] at h
    exact .inl ⟨hshort, (Host.Outcome.next.inj h).symm⟩
  · rw [execEnc_fits hfits] at h
    split at h
    · cases h
    · exact .inr ⟨hfits, (Host.Outcome.next.inj h).symm⟩

/-- ENC, when it answers that it wrote `n` bytes, stored the encoding, of `n` bytes. -/
theorem execEnc_written {s t : State} {n : Nat} (h : exec .enc s = .next t) (hn : t.answered (.written n)) :
    n = Codec.esize s.value ∧ t = s.reply (.written (Codec.esize s.value)) (Codec.encoding s.value) := by
  rcases execEnc_next h with ⟨-, rfl⟩ | ⟨-, rfl⟩
  · rw [State.fail, answered_reply] at hn
    cases hn
  · rw [answered_reply, Result.written.injEq] at hn
    exact ⟨hn.symm, rfl⟩

/-! ### The canonical encoding by its header and payload -/

/-- A value below BASE is its low byte (41_encoder R103). -/
theorem low_byte_toNat {v : U64} (h : v.toNat < 248) : (v.setWidth 8 : Byte).toNat = v.toNat := by
  rw [BitVec.toNat_setWidth]
  omega

theorem encoding_below_base {v : U64} (h : v.toNat < 248) : Codec.encoding v = [v.setWidth 8] :=
  if_pos ((esize_eq_one_iff v).2 h)

theorem encoding_from_base {v : U64} (h : 248 ≤ v.toNat) :
    Codec.encoding v =
      multiHeader (Codec.esize v) :: beBytes (Codec.esize v - 1) (v - BitVec.ofNat 64 BASE) :=
  if_neg (Nat.ne_of_gt (two_le_esize h))

/-- The size can be read off the first byte of an encoding (41_encoder R104). -/
theorem dsize_encoding_first (v : U64) : Codec.dsize ((Codec.encoding v).getD 0 0) = Codec.esize v := by
  rcases Nat.lt_or_ge v.toNat 248 with hv | hv
  · rw [(esize_eq_one_iff v).2 hv, dsize_eq_one_iff, encoding_first, if_pos hv]
    exact hv
  · rw [encoding_from_base hv, List.getD_cons_zero, dsize_multiHeader (two_le_esize hv) (esize_le v)]

/-- The payload is the trailing value exactly: no bit is lost (41_encoder R105). -/
theorem bigEndian_encoding_tail {v : U64} (h : 248 ≤ v.toNat) :
    bigEndian (Codec.encoding v).tail = v.toNat - 248 := by
  rw [encoding_tail v h, bigEndian_beBytes, sub_base_toNat v h, Nat.mod_eq_of_lt (esize_fits v h)]

/-- A payload begins with a zero byte exactly when one byte less would hold its number. -/
theorem headD_beBytes_eq_zero_iff {k : Nat} {t : U64} (ht : t.toNat < 256 ^ (k + 1)) (d : Byte) :
    (beBytes (k + 1) t).headD d = 0 ↔ t.toNat < 256 ^ k := by
  have hpos : 0 < 256 ^ k := by positivity
  have hbyte : t.toNat / 256 ^ k < 256 := Nat.div_lt_of_lt_mul (by rwa [← Nat.pow_succ])
  have hhead : ((beBytes (k + 1) t).headD d).toNat = t.toNat / 256 ^ k := by
    simp [beBytes, Nat.shiftRight_eq_div_pow, Nat.pow_mul, Nat.mod_eq_of_lt hbyte]
  rw [BitVec.toNat_eq, hhead, ← Nat.div_eq_zero_iff_lt hpos]
  rfl

/-! ### The shortest payload -/

/-- Only the trailing value of BASE itself would fit a payload one byte shorter, of no bytes (40_size_calculator
R94). -/
theorem fits_shorter_payload_iff {v : U64} (h : 248 ≤ v.toNat) :
    v.toNat - 248 < 256 ^ (Codec.esize v - 2) ↔ v.toNat = 248 := by
  constructor
  · intro hlt
    rcases (two_le_esize h).eq_or_lt with h2 | h3
    · rw [← h2, Nat.sub_self, Nat.pow_zero] at hlt
      omega
    · have htight := esize_tight v h3
      omega
  · intro hv
    rw [hv]
    positivity

/-- A payload of at least one byte that holds the trailing value is no shorter than the canonical one. -/
theorem esize_le_of_fits {v : U64} {k : Nat} (hk : 1 ≤ k) (h : v.toNat - 248 < 256 ^ k) : Codec.esize v ≤ k + 1 := by
  by_contra hlong
  have htight := esize_tight v (by omega)
  have hpow : 256 ^ k ≤ 256 ^ (Codec.esize v - 2) := Nat.pow_le_pow_right (by omega) (by omega)
  omega

/-- The number of the first `k` bytes of a payload, of however many there are, fits `k` bytes. -/
theorem bigEndian_take_lt (payload : List Byte) (k : Nat) : bigEndian (payload.take k) < 256 ^ k :=
  (bigEndian_lt _).trans_le (Nat.pow_le_pow_right (by omega) (List.length_take_le k payload))

/-- Whatever DEC decodes to a value is consumed in at least as many bytes as the value's encoding has (41_encoder
R108). -/
theorem esize_le_of_decBuffer_ok {b : List Byte} {v : U64} {n : Nat} (h : Codec.decBuffer b = .ok (v, n)) :
    Codec.esize v ≤ n := by
  cases b with
  | nil => cases h
  | cons header payload =>
    rcases decBuffer_cons_ok h with ⟨hb, hv, rfl⟩ | ⟨hb, hv, rfl⟩
    · exact ((esize_eq_one_iff v).2 (by omega)).le
    · have hpos := dsize_pos header
      have hone := dsize_eq_one_iff header
      have hlt := bigEndian_take_lt payload (Codec.dsize header - 1)
      have hle := esize_le_of_fits (v := v) (k := Codec.dsize header - 1) (by omega) (by omega)
      omega

/-! ### DEC of the canonical encoding -/

/-- DEC adds back the BASE that ENC subtracts. -/
theorem finish_sub_base {v : U64} (h : 248 ≤ v.toNat) (n : Nat) :
    Codec.finish (v - BitVec.ofNat 64 BASE) n = .ok (v, n) := by
  have hv := v.isLt
  have hsub := sub_base_toNat v h
  rcases finish_cases (v - BitVec.ofNat 64 BASE) n with ⟨-, w, hw, hfin⟩ | ⟨hover, -⟩
  · obtain rfl : w = v := BitVec.eq_of_toNat_eq (by omega)
    exact hfin
  · omega

theorem decBuffer_encoding (v : U64) : Codec.decBuffer (Codec.encoding v) = .ok (v, Codec.esize v) := by
  rcases Nat.lt_or_ge v.toNat 248 with hv | hv
  · have hheader := low_byte_toNat hv
    have hone : Codec.dsize (v.setWidth 8) = 1 := (dsize_eq_one_iff _).2 (by omega)
    have hback : (v.setWidth 8).setWidth 64 = v := BitVec.eq_of_toNat_eq (by
      rw [BitVec.toNat_setWidth, hheader]
      omega)
    rw [encoding_below_base hv, decBuffer_cons, hone, if_neg (by simp), if_pos rfl, hback, (esize_eq_one_iff v).2 hv]
  · have h2 := two_le_esize hv
    have hheader := multiHeader_toNat h2 (esize_le v)
    have hsize := dsize_multiHeader h2 (esize_le v)
    have hdec := decBuffer_beBytes (header := multiHeader (Codec.esize v)) (t := v - BitVec.ofNat 64 BASE) (by omega)
      (by rw [hsize, sub_base_toNat v hv]; exact esize_fits v hv)
    rw [hsize, finish_sub_base hv] at hdec
    rw [encoding_from_base hv, hdec]

end Sys2Proof.Machine

namespace Sys2Proof.Proofs

open Sys2Proof.Machine

/-- Settles O10: the two outcomes of ENC are the failure, which stores nothing (`execEnc_short`), and the reply of the
encoding (`execEnc_quiet`). -/
theorem encFailsExactlyWhenShort : Obligations.EncFailsExactlyWhenShort := by
  intro s
  constructor
  · intro hshort
    refine ⟨_, execEnc_short hshort, repliedOnly_reply s _, ?_⟩
    rintro p ⟨⟩
    exact Response.we_of_stored_nil _ rfl
  · intro hfits hquiet
    exact ⟨_, execEnc_quiet hquiet hfits, (answered_reply ..).2 rfl⟩

/-- Settles O11: in each outcome of ENC (`execEnc_next`) the result and the stored bytes are functions of the value. -/
theorem encNeverReadsDestination : Obligations.EncNeverReadsDestination := by
  intro s s' t t' hvalue hiff hexec hexec'
  rcases execEnc_next hexec with ⟨hshort, rfl⟩ | ⟨hfits, rfl⟩ <;>
    rcases execEnc_next hexec' with ⟨hshort', rfl⟩ | ⟨hfits', rfl⟩
  · exact ⟨_, _, rfl, rfl, rfl, rfl⟩
  · exact absurd (hiff.1 hshort) (Nat.not_lt.2 hfits')
  · exact absurd (hiff.2 hshort') (Nat.not_lt.2 hfits)
  · rw [hvalue]
    exact ⟨_, _, rfl, rfl, rfl, rfl⟩

/-- Settles O13: byte 0 of the destination is the encoding's first byte, which is `dsize_encoding_first` and
`encoding_first`. -/
theorem headerGivesBackTheSize : Obligations.HeaderGivesBackTheSize := by
  intro s t n hwf hexec hanswer
  obtain ⟨rfl, rfl⟩ := execEnc_written hexec hanswer
  have hbyte := bufByte_reply_of_lt hwf (.written (Codec.esize s.value))
    (show 0 < (Codec.encoding s.value).length by rw [length_encoding]; exact esize_pos s.value)
  rw [hbyte]
  refine ⟨rfl, dsize_encoding_first s.value, ?_⟩
  intro h2
  have hone := esize_eq_one_iff s.value
  rw [encoding_first, if_neg (by omega)]

/-- Settles O14: the payload lays out the trailing value in `size - 1` bytes, which hold it (`esize_fits`) and are no
more than it needs (`esize_tight`) but for the one byte of 248. -/
theorem payloadIsFixedWidth : Obligations.PayloadIsFixedWidth := by
  intro v
  have h9 := esize_le v
  refine ⟨by rw [List.length_tail, length_encoding], by omega, ?_⟩
  intro hv
  have hfits := esize_fits v hv
  refine ⟨hfits, fun hwide => esize_tight v (by omega), bigEndian_encoding_tail hv, ?_⟩
  have hwidth : Codec.esize v - 1 = Codec.esize v - 2 + 1 := by
    have := two_le_esize hv
    omega
  rw [encoding_tail v hv, hwidth, headD_beBytes_eq_zero_iff (by rwa [sub_base_toNat v hv, ← hwidth]),
    sub_base_toNat v hv, fits_shorter_payload_iff hv]

/-- Settles O15: DEC undoes ENC (`decBuffer_encoding`), and no shorter payload holds the value's number
(`esize_le_of_decBuffer_ok`). -/
theorem encodingIsShortest : Obligations.EncodingIsShortest := by
  intro v
  rw [length_encoding]
  exact ⟨decBuffer_encoding v, fun b n hdec => esize_le_of_decBuffer_ok hdec⟩

/-- Settles O12: below BASE the reply stores the value's low byte alone (`encoding_below_base`), which is the value. -/
theorem encSingleByteWritesTheValue : Obligations.EncSingleByteWritesTheValue := by
  intro s hwf hquiet hv hlen
  have hone := (esize_eq_one_iff s.value).2 hv
  have hexec : exec .enc s = .next (s.reply (.written 1) [s.value.setWidth 8]) := by
    rw [← hone, ← encoding_below_base hv]
    exact execEnc_quiet hquiet (by omega)
  refine ⟨hone, _, _, hexec, rfl, rfl, rfl, ?_, sameMemoryOutside_reply hwf _ [s.value.setWidth 8]⟩
  rw [bufByte_reply_of_lt hwf _ (by simp), List.getD_cons_zero, low_byte_toNat hv]

end Sys2Proof.Proofs
end

section
/-! The header size resolver (42_header_size_resolver R120 to R122): what DSIZE answers, from the header's number and
from its two bit fields. -/

namespace Sys2Proof.Machine

/-! ### What DSIZE answers -/

theorem execDsize_next {s t : State} (h : exec .dsize s = .next t) : t = s.reply (.size (Codec.dsize s.header)) [] :=
  (Host.Outcome.next.inj h).symm

/-- DSIZE, when it answers, answers the size its header calls for and nothing else. -/
theorem answered_size_iff_of_dsize {s t : State} (h : exec .dsize s = .next t) (n : Nat) :
    t.answered (.size n) ↔ Codec.dsize s.header = n := by
  rw [execDsize_next h, answered_reply, Result.size.injEq]

/-! ### The size by the header's number and by its bits -/

/-- The two lines of 42_header_size_resolver R120, BASE as a numeral. -/
theorem dsize_eq_ite (h : Byte) : Codec.dsize h = if h.toNat < 248 then 1 else h.toNat - 248 + 2 := rfl

/-- The bytes still to read after the header (42_header_size_resolver R121). -/
theorem dsize_sub_one (h : Byte) : Codec.dsize h - 1 = if h.toNat < 248 then 0 else h.toNat - 248 + 1 := by
  rw [dsize_eq_payloadCount, Nat.add_sub_cancel]
  rfl

/-- The headers at or above BASE are those with bits 7 to 3 all 1, since BASE is those five bits alone. -/
theorem base_le_iff_high_bits (h : Byte) : 248 ≤ h.toNat ↔ h.extractLsb' 3 5 = 0b11111#5 := by
  have hlt := h.isLt
  have hfield : (h.extractLsb' 3 5).toNat = h.toNat / 8 := by
    rw [BitVec.extractLsb'_toNat, Nat.shiftRight_eq_div_pow]
    omega
  rw [BitVec.toNat_eq, hfield, show (0b11111#5).toNat = 31 from rfl]
  omega

/-- Above BASE, whose bits 2 to 0 are 0, those bits are what the header has more than BASE. -/
theorem low_bits_toNat {h : Byte} (hb : 248 ≤ h.toNat) : (h.extractLsb' 0 3).toNat = h.toNat - 248 := by
  have hlt := h.isLt
  rw [BitVec.extractLsb'_toNat, Nat.shiftRight_zero]
  omega

theorem dsize_eq_ite_bits (h : Byte) :
    Codec.dsize h = if h.extractLsb' 3 5 = 0b11111#5 then (h.extractLsb' 0 3).toNat + 2 else 1 := by
  rw [dsize_eq_ite]
  rcases Nat.lt_or_ge h.toNat 248 with hlow | hb
  · rw [if_pos hlow, if_neg (mt (base_le_iff_high_bits h).2 (Nat.not_le.2 hlow))]
  · rw [if_neg (Nat.not_lt.2 hb), if_pos ((base_le_iff_high_bits h).1 hb), low_bits_toNat hb]

end Sys2Proof.Machine

namespace Sys2Proof.Proofs

open Sys2Proof.Machine

/-- Settles O6: DSIZE's one answer is `Codec.dsize` of the header, which `dsize_eq_ite_bits` gives by the bits and
`dsize_eq_ite` by the number. -/
theorem dsizeAnswersFromHeaderBits : Obligations.DsizeAnswersFromHeaderBits := by
  intro s
  have hlt := s.header.isLt
  refine ⟨base_le_iff_high_bits s.header, fun hb => by omega, s.reply (.size (Codec.dsize s.header)) [], rfl, ?_, ?_⟩
  · rw [← dsize_eq_ite_bits]
    exact repliedOnly_reply s _
  · rw [← dsize_eq_ite]
    exact repliedOnly_reply s _

/-- Settles O7: both answers are `Codec.dsize` of the one header, and `dsize_sub_one` counts the bytes after it. -/
theorem dsizeDependsOnHeaderAlone : Obligations.DsizeDependsOnHeaderAlone := by
  intro s s' t t' m n hheader hexec hexec' hm hn
  rw [← (answered_size_iff_of_dsize hexec m).1 hm, ← (answered_size_iff_of_dsize hexec' n).1 hn, hheader]
  exact ⟨rfl, dsize_sub_one s.header⟩

end Sys2Proof.Proofs
end

section
/-! The decoder's failures (43_decoder R131 to R138): what DEC replies, when its function gives each of the two errors,
and the inputs that overflow by their bytes. -/

namespace Sys2Proof.Machine

/-! ### What DEC replies -/

/-- The empty source is read nowhere, so no unordered invocation is in conflict (43_decoder R131). -/
theorem decQuiet_of_empty {s : State} (h : s.bufLen = 0) : s.decQuiet := by
  have htouches : Codec.decTouches s.bufLen s.bufByte = 0 := if_pos h
  rw [State.decQuiet, htouches, overlaps_zero]

/-- Where no unordered invocation is in conflict DEC replies with what its function gives, and stores nothing. -/
theorem execDec_repliedOnly {s : State} (h : s.decQuiet) :
    ∃ t, exec .dec s = .next t ∧ s.repliedOnly t (decResult (Codec.dec s.bufLen s.bufByte)) :=
  ⟨_, execDec_quiet h, repliedOnly_reply s _⟩

theorem decResult_eq_failure_iff (x : Except Err (U64 × Nat)) (e : Err) :
    decResult x = .failure e ↔ x = .error e := by
  cases x with
  | error e' => simp [decResult]
  | ok y => simp [decResult]

/-- DEC, when it answers, answers an error exactly when its function gives that error. -/
theorem answered_failure_iff_of_dec {s t : State} (h : exec .dec s = .next t) (e : Err) :
    t.answered (.failure e) ↔ Codec.dec s.bufLen s.bufByte = .error e := by
  rw [execDec_next h, answered_reply, decResult_eq_failure_iff]

/-! ### The outcomes of DEC's function -/

/-- DEC of a source that begins with a byte below BASE gives that byte (43_decoder R133). -/
theorem dec_singleByte {len : Nat} {f : Nat → Byte} (hlen : 1 ≤ len) (hb : (f 0).toNat < 248) :
    Codec.dec len f = .ok ((f 0).setWidth 64, 1) := by
  have h1 := (dsize_eq_one_iff (f 0)).2 hb
  rcases dec_cases len f with ⟨h0, -⟩ | ⟨-, hshort, -⟩ | ⟨-, -, h⟩ | ⟨h2, -, -⟩
  · omega
  · omega
  · exact h
  · omega

theorem finish_ne_insufficientBuffer (t : U64) (n : Nat) : Codec.finish t n ≠ .error .insufficientBuffer := by
  rcases finish_cases t n with ⟨-, v, -, h⟩ | ⟨-, h⟩ <;> simp [h]

theorem finish_eq_overflow_iff (t : U64) (n : Nat) :
    Codec.finish t n = .error .overflow ↔ 0xFFFFFFFFFFFFFF07 < t.toNat := by
  rcases finish_cases t n with ⟨hle, v, -, h⟩ | ⟨hgt, h⟩
  · simp [h, Nat.not_lt.2 hle]
  · simp [h, hgt]

/-- The two tests of the length, and no later one, end in InsufficientBuffer (43_decoder R138). -/
theorem dec_eq_insufficientBuffer_iff (len : Nat) (f : Nat → Byte) :
    Codec.dec len f = .error .insufficientBuffer ↔ len = 0 ∨ len < Codec.dsize (f 0) := by
  have h1 := dsize_eq_one_iff (f 0)
  rcases dec_cases len f with ⟨h0, h⟩ | ⟨-, hshort, h⟩ | ⟨hpos, hb, h⟩ | ⟨h2, hlen, h⟩ <;> rw [h]
  · exact iff_of_true rfl (.inl h0)
  · exact iff_of_true rfl (.inr hshort)
  · exact iff_of_false (by simp) (by omega)
  · exact iff_of_false (finish_ne_insufficientBuffer _ _) (by omega)

/-- Overflow comes from a complete multi-byte encoding whose trailing value is above the bound. -/
theorem dec_eq_overflow_iff (s : State) :
    Codec.dec s.bufLen s.bufByte = .error .overflow ↔
      Codec.dsize (s.bufByte 0) ≤ s.bufLen ∧
        0xFFFFFFFFFFFFFF07 < s.trailingNumber (Codec.dsize (s.bufByte 0)) := by
  have h1 := dsize_eq_one_iff (s.bufByte 0)
  have hpos := dsize_pos (s.bufByte 0)
  rcases dec_cases s.bufLen s.bufByte with ⟨h0, h⟩ | ⟨-, hshort, h⟩ | ⟨-, hb, h⟩ | ⟨-, hlen, h⟩ <;> rw [h]
  · exact iff_of_false (by simp) (by omega)
  · exact iff_of_false (by simp) (by omega)
  · have hlt := trailingNumber_lt s (Codec.dsize (s.bufByte 0))
    rw [h1.2 hb] at hlt ⊢
    exact iff_of_false (by simp) (by omega)
  · rw [finish_eq_overflow_iff, trailing_eq_trailingNumber s (dsize_le _), and_iff_right hlen]

/-! ### The trailing number above the bound -/

theorem dsize_eq_nine_iff (h : Byte) : Codec.dsize h = 9 ↔ h = 0xFF := by
  have hlt := h.isLt
  rw [dsize_eq_ite, BitVec.toNat_eq, show (0xFF : Byte).toNat = 255 from rfl]
  split_ifs <;> omega

/-- Only eight payload bytes hold a number above the bound (43_decoder R134). -/
theorem size_eq_nine_of_bound_lt_trailingNumber {s : State} {size : Nat} (h9 : size ≤ 9)
    (h : 0xFFFFFFFFFFFFFF07 < s.trailingNumber size) : size = 9 := by
  by_contra hne
  have hlt := trailingNumber_lt s size
  have hpow : 256 ^ (size - 1) ≤ 256 ^ 7 := Nat.pow_le_pow_right (by omega) (by omega)
  omega

/-- DEC overflows on nine bytes that begin with 0xFF and whose trailing number is above the bound. -/
theorem dec_eq_overflow_iff_nine (s : State) :
    Codec.dec s.bufLen s.bufByte = .error .overflow ↔
      9 ≤ s.bufLen ∧ s.bufByte 0 = 0xFF ∧ 0xFFFFFFFFFFFFFF07 < s.trailingNumber 9 := by
  rw [dec_eq_overflow_iff, ← dsize_eq_nine_iff]
  constructor
  · rintro ⟨hlen, hover⟩
    have hsize := size_eq_nine_of_bound_lt_trailingNumber (dsize_le _) hover
    rw [hsize] at hlen hover
    exact ⟨hlen, hsize, hover⟩
  · rintro ⟨hlen, hsize, hover⟩
    rw [hsize]
    exact ⟨hlen, hover⟩

theorem bigEndian_concat (bs : List Byte) (b : Byte) : bigEndian (bs ++ [b]) = bigEndian bs * 256 + b.toNat := by
  induction bs with
  | nil => simp [bigEndian]
  | cons c bs ih =>
    rw [List.cons_append, bigEndian, ih, bigEndian, List.length_append, List.length_singleton, Nat.pow_succ]
    ring

/-- One more payload byte, as the new least significant byte (43_decoder R136). -/
theorem trailingNumber_succ (s : State) (k : Nat) :
    s.trailingNumber (k + 2) = s.trailingNumber (k + 1) * 256 + (s.bufByte (k + 1)).toNat := by
  simp only [State.trailingNumber, Nat.add_sub_cancel, Nat.reduceSubDiff, List.range_succ, List.map_append,
    List.map_singleton, bigEndian_concat]

/-- The trailing number of `k` payload bytes is the greatest that fits them exactly when each is 0xFF. -/
theorem trailingNumber_max_iff (s : State) (k : Nat) :
    s.trailingNumber (k + 1) + 1 = 256 ^ k ↔ ∀ i, i < k → s.bufByte (i + 1) = 0xFF := by
  induction k with
  | zero => simp [State.trailingNumber, bigEndian]
  | succ k ih =>
    have hfits : s.trailingNumber (k + 1) < 256 ^ k := trailingNumber_lt s (k + 1)
    have hbyte := (s.bufByte (k + 1)).isLt
    have hlast : s.bufByte (k + 1) = 0xFF ↔ (s.bufByte (k + 1)).toNat = 255 := BitVec.toNat_eq
    rw [trailingNumber_succ, Nat.pow_succ, Nat.forall_lt_succ_right, ← ih, hlast]
    omega

/-- Eight payload bytes pass the bound `256^8 - 1 - BASE` exactly when the first seven are 0xFF and the last is 0x08 or
more (43_decoder R135). -/
theorem bound_lt_trailingNumber_nine_iff (s : State) :
    0xFFFFFFFFFFFFFF07 < s.trailingNumber 9 ↔
      (∀ i, i < 7 → s.bufByte (i + 1) = 0xFF) ∧ 0x08 ≤ (s.bufByte 8).toNat := by
  have hfits : s.trailingNumber 8 < 256 ^ 7 := trailingNumber_lt s 8
  have hbyte := (s.bufByte 8).isLt
  have hmax : s.trailingNumber 8 + 1 = 256 ^ 7 ↔ _ := trailingNumber_max_iff s 7
  have hlast : s.trailingNumber 9 = s.trailingNumber 8 * 256 + (s.bufByte 8).toNat := trailingNumber_succ s 7
  rw [← hmax, hlast]
  omega

theorem overflowing_iff (s : State) :
    s.overflowing ↔ 9 ≤ s.bufLen ∧ s.bufByte 0 = 0xFF ∧ 0xFFFFFFFFFFFFFF07 < s.trailingNumber 9 := by
  rw [State.overflowing, bound_lt_trailingNumber_nine_iff, Nat.forall_lt_succ_left, and_assoc]

end Sys2Proof.Machine

namespace Sys2Proof.Proofs

open Sys2Proof.Machine

/-- Settles O22: DEC's function overflows on nine bytes with a trailing number above the bound
(`dec_eq_overflow_iff_nine`), which is the set of R135 (`overflowing_iff`). -/
theorem overflowSet : Obligations.OverflowSet := by
  intro s t hexec
  rw [answered_failure_iff_of_dec hexec, dec_eq_overflow_iff_nine, overflowing_iff]

/-- Settles O23: the inputs of each error are `dec_eq_insufficientBuffer_iff` and `dec_eq_overflow_iff_nine`; on a short
source DEC's one outcome is the first error, so it is not the second. -/
theorem decFailuresInOrder : Obligations.DecFailuresInOrder := by
  intro s t hexec
  rw [answered_failure_iff_of_dec hexec, answered_failure_iff_of_dec hexec]
  refine ⟨dec_eq_insufficientBuffer_iff _ _, dec_eq_overflow_iff_nine s, ?_⟩
  intro hshort
  rw [(dec_eq_insufficientBuffer_iff _ _).2 hshort]
  simp

/-- Settles O18: an empty source is read nowhere (`decQuiet_of_empty`), so DEC replies, with the first error. -/
theorem decEmptyBuffer : Obligations.DecEmptyBuffer := by
  intro s hempty
  have hreply := execDec_repliedOnly (decQuiet_of_empty hempty)
  rwa [(dec_eq_insufficientBuffer_iff _ _).2 (.inl hempty)] at hreply

/-- Settles O19: the second length test ends in the error before a byte after the header is read. -/
theorem decShortBuffer : Obligations.DecShortBuffer := by
  intro s hquiet _ hshort
  have hreply := execDec_repliedOnly hquiet
  rwa [(dec_eq_insufficientBuffer_iff _ _).2 (.inr hshort)] at hreply

/-- Settles O20: DEC's function gives the byte itself (`dec_singleByte`), and zero extension keeps its number. -/
theorem decSingleByte : Obligations.DecSingleByte := by
  intro s hquiet hlen hb
  obtain ⟨t, hexec, hreply⟩ := execDec_repliedOnly hquiet
  rw [dec_singleByte hlen hb] at hreply
  refine ⟨t, hexec, hreply, ?_⟩
  rw [BitVec.toNat_setWidth_of_le (by omega)]
  omega

end Sys2Proof.Proofs
end

section
/-! The sign transform (44_sign_transform R150 to R158): what ZZENC and ZZDEC answer as numbers, and the two as
inverses. -/

namespace Sys2Proof.Machine

/-! ### What ZZENC and ZZDEC answer -/

theorem execZzenc_next {s t : State} (h : exec .zzenc s = .next t) :
    t = s.reply (.unsigned (Codec.zzenc s.signedValue)) [] :=
  (Host.Outcome.next.inj h).symm

theorem execZzdec_next {s t : State} (h : exec .zzdec s = .next t) :
    t = s.reply (.signed (Codec.zzdec s.value)) [] :=
  (Host.Outcome.next.inj h).symm

/-- ZZENC, when it answers, answers its function of the signed operand and nothing else. -/
theorem answered_unsigned_iff_of_zzenc {s t : State} (h : exec .zzenc s = .next t) (w : U64) :
    t.answered (.unsigned w) ↔ Codec.zzenc s.signedValue = w := by
  rw [execZzenc_next h, answered_reply, Result.unsigned.injEq]

/-- ZZDEC, when it answers, answers its function of the unsigned operand and nothing else. -/
theorem answered_signed_iff_of_zzdec {s t : State} (h : exec .zzdec s = .next t) (v : I64) :
    t.answered (.signed v) ↔ Codec.zzdec s.value = v := by
  rw [execZzdec_next h, answered_reply, Result.signed.injEq]

/-! ### ZZENC as a number and by its bits -/

/-- Doubling a nonnegative value drops no bit (44_sign_transform R152). -/
theorem zzenc_toNat_of_nonneg {v : I64} (h : 0 ≤ v.toInt) : ((Codec.zzenc v).toNat : Int) = 2 * v.toInt := by
  have hlt := v.isLt
  rw [BitVec.toInt_eq_toNat_cond] at h ⊢
  rw [Codec.zzenc, BitVec.toInt_eq_toNat_cond, if_pos h, BitVec.toNat_shiftLeft, Nat.shiftLeft_eq]
  split_ifs at h ⊢ <;> omega

/-- Doubling a negative value drops its sign bit alone; the complement is then `-2v - 1` (44_sign_transform R152). -/
theorem zzenc_toNat_of_neg {v : I64} (h : v.toInt < 0) : ((Codec.zzenc v).toNat : Int) = -2 * v.toInt - 1 := by
  have hlt := v.isLt
  rw [Codec.zzenc, if_neg (Int.not_le.2 h), BitVec.toNat_not, BitVec.toNat_shiftLeft, Nat.shiftLeft_eq]
  rw [BitVec.toInt_eq_toNat_cond] at h ⊢
  split_ifs at h ⊢ <;> omega

/-- The complement is the exclusive-or with the sign bit in every place. -/
theorem zzenc_eq_xor (v : I64) :
    Codec.zzenc v = (v <<< 1) ^^^ (if v.msb then BitVec.allOnes 64 else 0) := by
  rw [Codec.zzenc, BitVec.msb_eq_toInt]
  by_cases h : 0 ≤ v.toInt
  · simp [h, Int.not_lt.2 h]
  · rw [if_neg h, if_pos (decide_eq_true (Int.not_le.1 h)), BitVec.xor_allOnes]

/-! ### ZZDEC as a number -/

theorem getLsbD_zero_iff_odd (w : U64) : w.getLsbD 0 = true ↔ w.toNat % 2 = 1 := by
  rw [BitVec.getLsbD, Nat.testBit_zero, decide_eq_true_iff]

/-- The shift leaves bit 63 clear, so an even operand gives its half (44_sign_transform R156). -/
theorem zzdec_toInt_of_even {w : U64} (h : w.toNat % 2 = 0) : (Codec.zzdec w).toInt = (w.toNat / 2 : Nat) := by
  have hlt := w.isLt
  have hbit : ¬ w.getLsbD 0 = true := mt (getLsbD_zero_iff_odd w).1 (by omega)
  rw [Codec.zzdec, if_neg hbit, BitVec.toInt_eq_toNat_cond, BitVec.toNat_ushiftRight, Nat.shiftRight_eq_div_pow]
  split_ifs <;> omega

/-- The complement of the half sets bit 63, so an odd operand gives a negative number (44_sign_transform R156). -/
theorem zzdec_toInt_of_odd {w : U64} (h : w.toNat % 2 = 1) :
    (Codec.zzdec w).toInt = -(w.toNat / 2 : Nat) - 1 := by
  have hlt := w.isLt
  rw [Codec.zzdec, if_pos ((getLsbD_zero_iff_odd w).2 h), BitVec.toInt_eq_toNat_cond, BitVec.toNat_not,
    BitVec.toNat_ushiftRight, Nat.shiftRight_eq_div_pow]
  split_ifs <;> omega

/-! ### The two as inverses -/

/-- Nonnegative values go to even numbers and negative ones to odd numbers, and ZZDEC takes each back. -/
theorem zzdec_zzenc (v : I64) : Codec.zzdec (Codec.zzenc v) = v := by
  apply BitVec.eq_of_toInt_eq
  rcases lt_or_ge v.toInt 0 with hneg | hnonneg
  · have henc := zzenc_toNat_of_neg hneg
    rw [zzdec_toInt_of_odd (by omega)]
    omega
  · have henc := zzenc_toNat_of_nonneg hnonneg
    rw [zzdec_toInt_of_even (by omega)]
    omega

/-- Even numbers go to nonnegative values and odd ones to negative values, and ZZENC takes each back. -/
theorem zzenc_zzdec (w : U64) : Codec.zzenc (Codec.zzdec w) = w := by
  apply BitVec.eq_of_toNat_eq
  rcases Nat.mod_two_eq_zero_or_one w.toNat with heven | hodd
  · have hdec := zzdec_toInt_of_even heven
    have henc := zzenc_toNat_of_nonneg (v := Codec.zzdec w) (by omega)
    omega
  · have hdec := zzdec_toInt_of_odd hodd
    have henc := zzenc_toNat_of_neg (v := Codec.zzdec w) (by omega)
    omega

/-- The values whose doubling, or whose complemented doubling, stays below BASE (44_sign_transform R158). -/
theorem zzenc_lt_base_iff (v : I64) : (Codec.zzenc v).toNat < 248 ↔ -124 ≤ v.toInt ∧ v.toInt ≤ 123 := by
  rcases lt_or_ge v.toInt 0 with hneg | hnonneg
  · have henc := zzenc_toNat_of_neg hneg
    omega
  · have henc := zzenc_toNat_of_nonneg hnonneg
    omega

end Sys2Proof.Machine

namespace Sys2Proof.Proofs

open Sys2Proof.Machine

/-- Settles O27: ZZENC's one reply is `Codec.zzenc` of the operand, whose number the two sign cases give and whose bits
`zzenc_eq_xor`. -/
theorem zzencNumber : Obligations.ZzencNumber := by
  intro s
  exact ⟨_, Codec.zzenc s.signedValue, rfl, repliedOnly_reply s _, zzenc_toNat_of_nonneg, zzenc_toNat_of_neg,
    zzenc_eq_xor s.signedValue⟩

/-- Settles O28: ZZDEC's one reply is `Codec.zzdec` of the operand, whose number the two parities give; the halves are
nonnegative and what is one below minus a half is negative. -/
theorem zzdecNumber : Obligations.ZzdecNumber := by
  intro s
  refine ⟨_, Codec.zzdec s.value, rfl, repliedOnly_reply s _, ?_, ?_, ?_⟩
  · intro heven
    rw [zzdec_toInt_of_even heven]
    omega
  · intro hodd
    rw [zzdec_toInt_of_odd hodd]
    omega
  · rcases Nat.mod_two_eq_zero_or_one s.value.toNat with heven | hodd
    · rw [zzdec_toInt_of_even heven]
      omega
    · rw [zzdec_toInt_of_odd hodd]
      omega

/-- Settles O29: each answer is the function of the operand presented, and the functions undo each other
(`zzdec_zzenc`, `zzenc_zzdec`). -/
theorem signTransformInverse : Obligations.SignTransformInverse := by
  constructor
  · intro s t s' t' w hexec hanswer hvalue hexec'
    rw [answered_signed_iff_of_zzdec hexec', hvalue, ← (answered_unsigned_iff_of_zzenc hexec w).1 hanswer, zzdec_zzenc]
  · intro s t s' t' v hexec hanswer hvalue hexec'
    rw [answered_unsigned_iff_of_zzenc hexec', hvalue, ← (answered_signed_iff_of_zzdec hexec v).1 hanswer, zzenc_zzdec]

/-- Settles O30: the range is that of `zzenc_lt_base_iff`, and values below BASE have size 1 (`esize_eq_one_iff`). -/
theorem smallSignedTakesOneByte : Obligations.SmallSignedTakesOneByte := by
  refine ⟨?_, by decide⟩
  intro v hlo hhi
  have hbase := (zzenc_lt_base_iff v).2 ⟨hlo, hhi⟩
  exact ⟨hbase, (esize_eq_one_iff _).2 hbase⟩

end Sys2Proof.Proofs
end

section
/-! The laws across operations (45_arithmetic_and_laws R180 to R187): what a DEC that succeeded depends on, what an
answer depends on, and ENC and DEC after each other. -/

namespace Sys2Proof.Machine

/-! ### What a successful DEC depends on -/

theorem decResult_eq_decoded_iff (x : Except Err (U64 × Nat)) (v : U64) (n : Nat) :
    decResult x = .decoded v n ↔ x = .ok (v, n) := by
  rcases x with e | ⟨w, m⟩
  · simp [decResult]
  · simp [decResult]

/-- DEC, when it answers, answers a value and a count exactly when its function gives them. -/
theorem answered_decoded_iff_of_dec {s t : State} (h : exec .dec s = .next t) (v : U64) (n : Nat) :
    t.answered (.decoded v n) ↔ Codec.dec s.bufLen s.bufByte = .ok (v, n) := by
  rw [execDec_next h, answered_reply, decResult_eq_decoded_iff]

/-- DEC touches all of an encoding that its source holds (20_memory R44). -/
theorem decTouches_of_fits {len : Nat} {f : Nat → Byte} (h : Codec.dsize (f 0) ≤ len) :
    Codec.decTouches len f = Codec.dsize (f 0) := by
  have hpos := dsize_pos (f 0)
  rw [Codec.decTouches, if_neg (by omega), if_neg (by omega)]

/-- A success of DEC carries over to every source that begins with the bytes it consumed. -/
theorem dec_ok_of_same_bytes {len len' : Nat} {f g : Nat → Byte} {v : U64} {n : Nat}
    (h : Codec.dec len f = .ok (v, n)) (hlen : n ≤ len') (hbytes : ∀ i, i < n → g i = f i) :
    Codec.dec len' g = .ok (v, n) := by
  obtain ⟨rfl, hfits, -⟩ := dec_ok h
  rw [← h]
  exact dec_congr (.inr ⟨hfits, hlen⟩) fun i hi => hbytes i (decTouches_of_fits hfits ▸ hi)

/-- DEC of any source that begins with a canonical encoding gives the value and its size. -/
theorem dec_of_encoding_bytes {v : U64} {len : Nat} {f : Nat → Byte} (hlen : Codec.esize v ≤ len)
    (hbytes : ∀ i, i < Codec.esize v → f i = (Codec.encoding v).getD i 0) :
    Codec.dec len f = .ok (v, Codec.esize v) :=
  dec_ok_of_same_bytes (decBuffer_encoding v) hlen hbytes

/-! ### What an answer depends on -/

/-- ENC, when it answers, replies with what the value and the length alone give. -/
theorem execEnc_eq_encReply {s t : State} (h : exec .enc s = .next t) :
    t = s.reply (encReply s.value s.bufLen).1 (encReply s.value s.bufLen).2 := by
  rcases execEnc_next h with ⟨hshort, rfl⟩ | ⟨hfits, rfl⟩
  · rw [encReply, enc_eq, if_pos hshort, State.fail]
  · rw [encReply, enc_eq, if_neg (Nat.not_lt.2 hfits), ← length_encoding]

/-- A WIRE row replies in every state with the same result, its operand being its own (30_encoding R79). -/
theorem exec_wire_reply {i : Instr} (h : 0 < i.wireSize) : ∃ res, ∀ s, exec i s = .next (s.reply res []) := by
  cases i with
  | esize | enc | dsize | dec | zzenc | zzdec => cases h
  | w1a b | w1b b | w1c b | w1d b | w1e b =>
    exact ⟨decResult (.ok (b.setWidth 64, 1)), fun s => congrArg Host.Outcome.next (finishDecode_eq s _)⟩
  | w2 t | w3 t | w4 t | w5 t | w6 t | w7 t | w8 t | w9 t =>
    exact ⟨decResult (Codec.finish t _), fun s => congrArg Host.Outcome.next (finishDecode_eq s _)⟩

/-- Two states with the same operands are answered by the same reply. -/
theorem exec_congr_of_sameOperands {i : Instr} {s s' t t' : State} (hop : State.sameOperands i s s')
    (h : exec i s = .next t) (h' : exec i s' = .next t') :
    ∃ res bs, t = s.reply res bs ∧ t' = s'.reply res bs := by
  rcases Nat.eq_zero_or_pos i.wireSize with hzero | hwire
  · cases i with
    | esize =>
      have hvalue : s'.value = s.value := hop
      exact ⟨_, _, execEsize_next h, hvalue ▸ execEsize_next h'⟩
    | enc =>
      obtain ⟨hvalue, hlen⟩ := hop
      exact ⟨_, _, execEnc_eq_encReply h, hvalue ▸ hlen ▸ execEnc_eq_encReply h'⟩
    | dsize =>
      have hheader : s'.header = s.header := hop
      exact ⟨_, _, execDsize_next h, hheader ▸ execDsize_next h'⟩
    | dec =>
      obtain ⟨hlen, hbytes⟩ := hop
      exact ⟨_, _, execDec_next h, dec_congr (.inl hlen) hbytes ▸ execDec_next h'⟩
    | zzenc =>
      have hvalue : s'.signedValue = s.signedValue := hop
      exact ⟨_, _, execZzenc_next h, hvalue ▸ execZzenc_next h'⟩
    | zzdec =>
      have hvalue : s'.value = s.value := hop
      exact ⟨_, _, execZzdec_next h, hvalue ▸ execZzdec_next h'⟩
    | _ => cases hzero
  · obtain ⟨res, hres⟩ := exec_wire_reply hwire
    exact ⟨res, [], Host.Outcome.next.inj (h.symm.trans (hres s)), Host.Outcome.next.inj (h'.symm.trans (hres s'))⟩

/-! ### ENC, then DEC -/

/-- A step runs the instruction that the oldest request's select code names. -/
theorem step_of_decodeSelect_ok {s : State} {r : Request} {rest : List Request} {i : Instr}
    (hp : s.pending = r :: rest) (hd : decodeSelect r.op = .ok i) :
    step s = exec i { s with req := r, pending := rest } := by
  simp only [step, State.present?, hp, hd]

/-- A run goes on from where its first step leads. -/
theorem run_succ_of_step {s s' : State} (h : step s = .next s') (k : Nat) : core.run (k + 1) s = core.run k s' := by
  have hstep : core.step s = .next s' := h
  simp only [Host.Core.run, hstep]

/-- A step whose oldest request is an ENC of a value that fits, with no unordered invocation, stores the encoding. -/
theorem step_enc_alone {s : State} {r : Request} {rest : List Request} (hp : s.pending = r :: rest) (hop : r.op = 1)
    (halone : r.concurrent = []) (hlen : Codec.esize r.a ≤ r.len) :
    step s = .next (({ s with req := r, pending := rest } : State).reply (.written (Codec.esize r.a))
      (Codec.encoding r.a)) := by
  have hselect : decodeSelect r.op = .ok .enc := by rw [hop]; rfl
  rw [step_of_decodeSelect_ok hp hselect]
  exact execEnc_quiet (encQuiet_of_alone halone) hlen

/-- A step whose oldest request is a DEC with no unordered invocation replies with what its function gives. -/
theorem step_dec_alone {s : State} {r : Request} {rest : List Request} (hp : s.pending = r :: rest) (hop : r.op = 3)
    (halone : r.concurrent = []) :
    step s = .next (({ s with req := r, pending := rest } : State).reply
      (decResult (Codec.dec r.len fun k => s.mem.read (r.base + k))) []) := by
  have hselect : decodeSelect r.op = .ok .dec := by rw [hop]; rfl
  rw [step_of_decodeSelect_ok hp hselect]
  exact execDec_quiet (decQuiet_of_alone halone)

/-! ### DEC, then ENC -/

/-- ENC into a destination that is long enough replaces its first bytes by the encoding. -/
theorem encBuffer_of_fits {v : U64} {destination : List Byte} (h : Codec.esize v ≤ destination.length) :
    Codec.encBuffer v destination =
      (.ok (Codec.esize v), Codec.encoding v ++ destination.drop (Codec.esize v)) := by
  rw [Codec.encBuffer, enc_eq, if_neg (Nat.not_lt.2 h), ← length_encoding]

/-- DEC ignores what follows a canonical encoding. -/
theorem decBuffer_encoding_append (v : U64) (rest : List Byte) :
    Codec.decBuffer (Codec.encoding v ++ rest) = .ok (v, Codec.esize v) := by
  have hlen := length_encoding v
  apply dec_of_encoding_bytes
  · rw [List.length_append]
    omega
  · intro i hi
    exact List.getD_append _ _ _ _ (by omega)

/-- The header ENC writes for the size that a multi-byte header calls for is that header. -/
theorem multiHeader_dsize {header : Byte} (h : 248 ≤ header.toNat) : multiHeader (Codec.dsize header) = header := by
  have hdsize := dsize_eq_ite header
  rw [if_neg (by omega)] at hdsize
  have hnumber := multiHeader_toNat (size := Codec.dsize header) (by omega) (dsize_le header)
  exact BitVec.eq_of_toNat_eq (by omega)

/-- An encoding that DEC consumes in as many bytes as the value's canonical one has is the canonical one. -/
theorem take_eq_encoding_of_decBuffer_ok {b : List Byte} {v : U64}
    (h : Codec.decBuffer b = .ok (v, Codec.esize v)) : b.take (Codec.esize v) = Codec.encoding v := by
  rcases Nat.lt_or_ge v.toNat 248 with hv | hv
  · rw [decBuffer_ok_below_base hv h, encoding_below_base hv]
  cases b with
  | nil => cases h
  | cons header payload =>
    obtain ⟨-, hfits, -⟩ := dec_ok h
    have hpos := esize_pos v
    rcases decBuffer_cons_ok h with ⟨hlow, hval, -⟩ | ⟨hb, hval, hsize⟩
    · omega
    have htail : payload.take (Codec.esize v - 1) = (Codec.encoding v).tail := by
      apply bigEndian_injective
      · rw [List.length_take, List.length_tail, length_encoding]
        rw [List.length_cons] at hfits
        omega
      · rw [bigEndian_encoding_tail hv, hsize]
        omega
    rw [← Nat.sub_add_cancel hpos, List.take_succ_cons, htail, encoding_from_base hv, List.tail_cons, hsize,
      multiHeader_dsize hb]

end Sys2Proof.Machine

namespace Sys2Proof.Proofs

open Sys2Proof.Machine

/-- Settles O26: the success carries over to a source with the same bytes (`dec_ok_of_same_bytes`); a shorter source
has byte 0 call for more than it holds (`dec_eq_insufficientBuffer_iff`). -/
theorem decIgnoresTheSuffix : Obligations.DecIgnoresTheSuffix := by
  intro s s' t v n hexec hanswer hquiet
  have hdec := (answered_decoded_iff_of_dec hexec v n).1 hanswer
  have hexec' := execDec_quiet hquiet
  constructor
  · intro hlen hbytes
    exact ⟨_, hexec', (answered_decoded_iff_of_dec hexec' v n).2 (dec_ok_of_same_bytes hdec hlen hbytes)⟩
  · intro hshort hfirst
    obtain ⟨hn, -, -⟩ := dec_ok hdec
    have hinsufficient := (dec_eq_insufficientBuffer_iff s'.bufLen s'.bufByte).2 (.inr (by rwa [hfirst, ← hn]))
    exact ⟨_, hexec', (answered_failure_iff_of_dec hexec' _).2 hinsufficient⟩

/-- Settles O49: both states are answered by one reply (`exec_congr_of_sameOperands`), which carries its result and its
stored bytes whatever state it is given in. -/
theorem answerDependsOnOperandsAlone : Obligations.AnswerDependsOnOperandsAlone := by
  intro i s s' t t' hop hexec hexec'
  obtain ⟨res, bs, rfl, rfl⟩ := exec_congr_of_sameOperands hop hexec hexec'
  exact ⟨_, _, rfl, rfl, rfl, rfl⟩

/-- Settles O52: after the first step memory from the base on reads as the encoding, which DEC undoes whatever follows
it (`dec_of_encoding_bytes`). -/
theorem roundTrip : Obligations.RoundTrip := by
  intro s r q rest hwf hpending hr hq hbase hralone hqalone hrlen hqlen
  have henc := step_enc_alone hpending hr hralone hrlen
  have hdec := step_dec_alone (s := ({ s with req := r, pending := q :: rest } : State).reply
    (.written (Codec.esize r.a)) (Codec.encoding r.a)) rfl hq hqalone
  refine ⟨_, (run_succ_of_step henc 1).trans (run_succ_of_step hdec 0), ?_⟩
  rw [answered_reply, decResult_eq_decoded_iff]
  apply dec_of_encoding_bytes hqlen
  intro i hi
  rw [hbase]
  exact bufByte_reply_of_lt (s := { s with req := r, pending := q :: rest }) hwf _ (by rwa [length_encoding])

/-- Settles O55: ENC writes the canonical encoding, which is never longer (`esize_le_of_decBuffer_ok`) and, of equal
length, the bytes DEC read (`take_eq_encoding_of_decBuffer_ok`). -/
theorem decThenEnc : Obligations.DecThenEnc := by
  intro b destination v n hdec hfits
  obtain ⟨-, hn, -⟩ := dec_ok hdec
  refine ⟨esize_le_of_decBuffer_ok hdec, _, encBuffer_of_fits hfits, decBuffer_encoding_append v _, ?_⟩
  rw [List.take_left' (length_encoding v)]
  constructor
  · intro hsame
    rw [← length_encoding v, hsame, List.length_take, Nat.min_eq_left hn]
  · rintro rfl
    exact (take_eq_encoding_of_decBuffer_ok hdec).symm

end Sys2Proof.Proofs
end

section
/-! The errors (60_exceptions R203): which operations can fail, and the inputs on which each of them does. -/

namespace Sys2Proof.Machine

/-! ### Which operations fail -/

/-- The four operations other than ENC and DEC never answer an error. -/
theorem not_answered_failure {i : Instr} {s t : State} (hop : i.wireSize = 0) (henc : i ≠ .enc) (hdec : i ≠ .dec)
    (h : exec i s = .next t) (e : Err) : ¬ t.answered (.failure e) := by
  cases i with
  | enc => exact absurd rfl henc
  | dec => exact absurd rfl hdec
  | esize => simp [execEsize_next h]
  | dsize => simp [execDsize_next h]
  | zzenc => simp [execZzenc_next h]
  | zzdec => simp [execZzdec_next h]
  | _ => cases hop

/-- ENC, when it answers, fails on short destinations alone, and with the one error. -/
theorem answered_failure_iff_of_enc {s t : State} (h : exec .enc s = .next t) (e : Err) :
    t.answered (.failure e) ↔ e = .insufficientBuffer ∧ s.bufLen < Codec.esize s.value := by
  rcases execEnc_next h with ⟨hshort, rfl⟩ | ⟨hfits, rfl⟩
  · rw [State.fail, answered_reply, Result.failure.injEq, and_iff_left hshort, eq_comm]
  · simp [Nat.not_lt.2 hfits]

/-- An encoding whose trailing number is above the bound has a payload. -/
theorem two_le_dsize_of_bound_lt_trailingNumber {s : State}
    (h : 0xFFFFFFFFFFFFFF07 < s.trailingNumber (Codec.dsize (s.bufByte 0))) : 2 ≤ Codec.dsize (s.bufByte 0) := by
  rw [size_eq_nine_of_bound_lt_trailingNumber (dsize_le _) h]
  decide

end Sys2Proof.Machine

namespace Sys2Proof.Proofs

open Sys2Proof.Machine

/-- Settles O50: ENC has the one error (`answered_failure_iff_of_enc`), DEC has its function's two
(`dec_eq_insufficientBuffer_iff`, `dec_eq_overflow_iff`), and no other operation has one (`not_answered_failure`). -/
theorem whoReportsWhichError : Obligations.WhoReportsWhichError := by
  intro i s t hop hexec
  by_cases henc : i = .enc
  · subst henc
    simp [answered_failure_iff_of_enc hexec]
  by_cases hdec : i = .dec
  · subst hdec
    rw [answered_failure_iff_of_dec hexec, answered_failure_iff_of_dec hexec, dec_eq_insufficientBuffer_iff,
      dec_eq_overflow_iff]
    have hpayload := two_le_dsize_of_bound_lt_trailingNumber (s := s)
    refine ⟨by simp, ?_, ?_⟩
    · rintro ⟨hlen, hover⟩
      exact ⟨rfl, hlen, hpayload hover, hover⟩
    · rintro ⟨-, hlen, -, hover⟩
      exact ⟨hlen, hover⟩
  · simp [henc, hdec, not_answered_failure hop henc hdec hexec]

end Sys2Proof.Proofs
end

section
/-! The encodings as a code (30_encoding R62, R63, R79; 45_arithmetic_and_laws R184): every well-formed WIRE row is the
row of a header with as many payload bytes as the header calls for, so decoding undoes encoding and the other way
round. -/

namespace Sys2Proof.Machine

/-! ### The row of a header -/

theorem payloadCount_multiHeader {size : Nat} (h2 : 2 ≤ size) (h9 : size ≤ 9) :
    payloadCount (multiHeader size) = size - 1 := by
  have hsize := dsize_eq_payloadCount (multiHeader size)
  rw [dsize_multiHeader h2 h9] at hsize
  omega

/-- A header below BASE is its own row, which has no payload (30_encoding R64). -/
theorem wireRow_single : ∀ h : Byte, h.toNat < 248 →
    (wireRow h 0).wellFormed = true ∧ encode (wireRow h 0) = .wire [h] := by
  decide

theorem encode_wireRow_multiHeader {size : Nat} (h2 : 2 ≤ size) (h9 : size ≤ 9) (t : U64) :
    encode (wireRow (multiHeader size) t) = .wire (multiBytes size t) := by
  interval_cases size <;> rfl

theorem wellFormed_wireRow_multiHeader {size : Nat} {t : U64} (h2 : 2 ≤ size) (h9 : size ≤ 9)
    (ht : t.toNat < 256 ^ (size - 1)) : (wireRow (multiHeader size) t).wellFormed = true := by
  rcases h9.eq_or_lt with rfl | h8
  · rfl
  · interval_cases size <;> exact decide_eq_true ht

/-- A row's size is what DSIZE gives for its header (42_header_size_resolver R120). -/
theorem wireSize_wireRow (h : Byte) (t : U64) : (wireRow h t).wireSize = Codec.dsize h := by
  rw [(wireRow_row h t 0).2]
  revert h
  decide

/-- A row is well-formed, and its encoding is the header and the payload it was read from (30_encoding R71). -/
theorem encode_wireRow {h : Byte} {payload : List Byte} (hp : payload.length = payloadCount h) :
    (wireRow h (trailing payload)).wellFormed = true ∧
      encode (wireRow h (trailing payload)) = .wire (h :: payload) := by
  have hsize := dsize_eq_payloadCount h
  rcases Nat.lt_or_ge h.toNat 248 with hlow | hb
  · have hone := (dsize_eq_one_iff h).2 hlow
    obtain rfl : payload = [] := List.eq_nil_of_length_eq_zero (by omega)
    exact wireRow_single h hlow
  · have hone := dsize_eq_one_iff h
    have h2 : 2 ≤ Codec.dsize h := by omega
    have h9 := dsize_le h
    have hlen : payload.length = Codec.dsize h - 1 := by omega
    have hfits : (trailing payload).toNat < 256 ^ (Codec.dsize h - 1) := by
      rw [trailing_toNat _ (by omega), ← hlen]
      exact bigEndian_lt payload
    have hback := beBytes_trailing payload (by omega)
    have hwf := wellFormed_wireRow_multiHeader h2 h9 hfits
    have henc := encode_wireRow_multiHeader h2 h9 (trailing payload)
    rw [multiBytes, ← hlen, hback] at henc
    rw [multiHeader_dsize hb] at hwf henc
    exact ⟨hwf, henc⟩

/-! ### Every well-formed WIRE row is the row of a header -/

/-- The instruction is what the decoder makes of a header and its payload, and those are its encoding. -/
def IsRowOf (i : Instr) (h : Byte) (payload : List Byte) : Prop :=
  payload.length = payloadCount h ∧ i = wireRow h (trailing payload) ∧ encode i = .wire (h :: payload)

theorem isRowOf_multi {size : Nat} {t : U64} (h2 : 2 ≤ size) (h9 : size ≤ 9) (ht : t.toNat < 256 ^ (size - 1)) :
    IsRowOf (wireRow (multiHeader size) t) (multiHeader size) (beBytes (size - 1) t) := by
  refine ⟨?_, ?_, encode_wireRow_multiHeader h2 h9 t⟩
  · rw [length_beBytes, payloadCount_multiHeader h2 h9]
  · rw [trailing_beBytes (by omega) ht]

theorem isRowOf_single {i : Instr} {v : Byte} (h : payloadCount v = 0 ∧ i = wireRow v 0 ∧ encode i = .wire [v]) :
    IsRowOf i v [] :=
  ⟨h.1.symm, h.2⟩

/-- A well-formed WIRE row is the row of some header (30_encoding R79). -/
theorem exists_isRowOf {i : Instr} (hwf : i.wellFormed = true) (hwire : 1 ≤ i.wireSize) :
    ∃ h payload, IsRowOf i h payload := by
  cases i with
  | esize | enc | dsize | dec | zzenc | zzdec => cases hwire
  | w1a v => exact ⟨v, [], isRowOf_single (by revert v; decide)⟩
  | w1b v => exact ⟨v, [], isRowOf_single (by revert v; decide)⟩
  | w1c v => exact ⟨v, [], isRowOf_single (by revert v; decide)⟩
  | w1d v => exact ⟨v, [], isRowOf_single (by revert v; decide)⟩
  | w1e v => exact ⟨v, [], isRowOf_single (by revert v; decide)⟩
  | w2 t => exact ⟨_, _, isRowOf_multi (size := 2) (by omega) (by omega) (of_decide_eq_true hwf)⟩
  | w3 t => exact ⟨_, _, isRowOf_multi (size := 3) (by omega) (by omega) (of_decide_eq_true hwf)⟩
  | w4 t => exact ⟨_, _, isRowOf_multi (size := 4) (by omega) (by omega) (of_decide_eq_true hwf)⟩
  | w5 t => exact ⟨_, _, isRowOf_multi (size := 5) (by omega) (by omega) (of_decide_eq_true hwf)⟩
  | w6 t => exact ⟨_, _, isRowOf_multi (size := 6) (by omega) (by omega) (of_decide_eq_true hwf)⟩
  | w7 t => exact ⟨_, _, isRowOf_multi (size := 7) (by omega) (by omega) (of_decide_eq_true hwf)⟩
  | w8 t => exact ⟨_, _, isRowOf_multi (size := 8) (by omega) (by omega) (of_decide_eq_true hwf)⟩
  | w9 t => exact ⟨_, _, isRowOf_multi (size := 9) (by omega) (by omega) t.isLt⟩

/-! ### Decoding what was encoded, and encoding what was decoded -/

/-- A WIRE row is read from the front of any byte sequence that begins with its encoding. -/
theorem decodeWire_encode {i : Instr} (hwf : i.wellFormed = true) (hwire : 1 ≤ i.wireSize) (rest : List Byte) :
    decodeWire ((encode i).bytes ++ rest) = .ok (i, rest) := by
  obtain ⟨h, payload, hlen, hrow, henc⟩ := exists_isRowOf hwf hwire
  rw [henc, Code.bytes, List.cons_append, decodeWire_payload h payload rest hlen, ← hrow]

/-- The code of a WIRE row is its bytes. -/
theorem encode_eq_wire {i : Instr} (hwire : 1 ≤ i.wireSize) : encode i = .wire (encode i).bytes := by
  cases i with
  | esize | enc | dsize | dec | zzenc | zzdec => cases hwire
  | _ => rfl

/-- An operation is read from its select code (30_encoding R75). -/
theorem decode_encode_op {i : Instr} (hop : i.wireSize = 0) : decode (encode i) = .ok i := by
  cases i with
  | esize | enc | dsize | dec | zzenc | zzdec => rfl
  | _ => cases hop

/-- What the decoder reads, said once: the header, as many bytes as it calls for, and the rest. -/
theorem decodeWire_ok {bytes rest : List Byte} {i : Instr} (h : decodeWire bytes = .ok (i, rest)) :
    ∃ header payload, payload.length = payloadCount header ∧ bytes = header :: (payload ++ rest) ∧
      i = wireRow header (trailing payload) := by
  cases bytes with
  | nil => cases h
  | cons header tail =>
    simp only [decodeWire] at h
    split_ifs at h with hshort
    simp only [Except.ok.injEq, Prod.mk.injEq] at h
    obtain ⟨rfl, rfl⟩ := h
    exact ⟨header, tail.take (payloadCount header), by rw [List.length_take]; omega,
      by rw [List.take_append_drop], rfl⟩

/-- What the decoder of select codes reads is an operation, of that code (30_encoding R75). -/
theorem decodeSelect_ok {op : BitVec 3} {i : Instr} (h : decodeSelect op = .ok i) :
    encode i = .select op ∧ i.wellFormed = true := by
  rcases decodeSelect_cases op with ⟨-, j, hj, henc, hwf⟩ | ⟨-, herr⟩
  · obtain rfl : j = i := Except.ok.inj (hj.symm.trans h)
    exact ⟨henc, hwf⟩
  · rw [herr] at h
    cases h

/-! ### Encodings laid end to end -/

/-- The decoder of a stream takes one encoding off its front. -/
theorem decodeStream_encode {i : Instr} (hwf : i.wellFormed = true) (hwire : 1 ≤ i.wireSize) (fuel : Nat)
    (rest : List Byte) :
    decodeStream (fuel + 1) ((encode i).bytes ++ rest) = (decodeStream fuel rest).map (i :: ·) := by
  have hdec := decodeWire_encode hwf hwire rest
  obtain ⟨h, payload, -, -, henc⟩ := exists_isRowOf hwf hwire
  rw [henc, Code.bytes, List.cons_append] at hdec ⊢
  simp only [decodeStream, hdec]

/-! ### The table's row of a header -/

/-- A header matches the mask and pattern of one row, and it is the decoder's (30_encoding R79). -/
theorem wireRowsOf_header (h : Byte) (t : U64) :
    (Claims.wireRowsOf h).length = 1 ∧
      ((wireRow h t).row.2.1, (wireRow h t).row.2.2) ∈ Claims.wireRowsOf h ∧ (wireRow h t).row.1 = true := by
  rw [(wireRow_row h t 0).1]
  revert h
  decide

end Sys2Proof.Machine

namespace Sys2Proof.Proofs

open Sys2Proof.Machine

/-- Settles O36: an operation is read from its select code (`decode_encode_op`), a WIRE row from the front of its bytes
(`decodeWire_encode`), here with nothing after them. -/
theorem decodeOfEncode : Obligations.DecodeOfEncode := by
  intro i hwf
  refine ⟨?_, fun hwire rest => decodeWire_encode hwf hwire rest⟩
  rcases Nat.eq_zero_or_pos i.wireSize with hop | hwire
  · exact decode_encode_op hop
  · have hdec := decodeWire_encode hwf hwire []
    rw [List.append_nil] at hdec
    rw [encode_eq_wire hwire, decode, hdec]
    rfl

/-- Settles O39: by induction on the list, each row being read off the front (`decodeStream_encode`); and where one
encoding begins another, the decoder reads both rows from the same bytes. -/
theorem concatenationParsesUniquely : Obligations.ConcatenationParsesUniquely := by
  constructor
  · intro is h
    induction is with
    | nil => rfl
    | cons i is ih =>
      rw [List.forall_mem_cons] at h
      obtain ⟨⟨hwf, hwire⟩, htail⟩ := h
      rw [List.flatMap_cons, List.length_cons, decodeStream_encode hwf hwire, ih htail]
      rfl
  · rintro i j hwfi hwfj hwirei hwirej ⟨rest, hprefix⟩
    have hi := decodeWire_encode hwfi hwirei rest
    have hj := decodeWire_encode hwfj hwirej []
    rw [List.append_nil, ← hprefix, hi] at hj
    exact congrArg Prod.fst (Except.ok.inj hj)

/-- Settles O37: the bytes read are a header and its payload (`decodeWire_ok`), which is the encoding of their row
(`encode_wireRow`). -/
theorem encodeOfDecode : Obligations.EncodeOfDecode := by
  constructor
  · intro bytes rest i hdec
    obtain ⟨header, payload, hlen, rfl, rfl⟩ := decodeWire_ok hdec
    obtain ⟨hwf, henc⟩ := encode_wireRow hlen
    refine ⟨hwf, ?_, ?_⟩
    · rw [wireSize_wireRow]
      exact dsize_pos header
    · rw [henc, Code.bytes, List.cons_append]
  · intro op i hdec
    exact (decodeSelect_ok hdec).symm

/-- Settles O8: the decoder reads the row of the header, which is the table's (`wireRowsOf_header`) and has DSIZE's size
(`wireSize_wireRow`). -/
theorem everyHeaderHasOneRow : Obligations.EveryHeaderHasOneRow := by
  intro h payload hlen
  obtain ⟨hone, hmem, hwire⟩ := wireRowsOf_header h (trailing payload)
  have hdec := decodeWire_payload h payload [] hlen
  rw [List.append_nil] at hdec
  refine ⟨hone, _, hdec, hmem, hwire, wireSize_wireRow h _, ?_⟩
  rw [dsize_eq_payloadCount, Nat.add_sub_cancel]

/-- Settles O38: the decoder run on each word. -/
theorem specWordsDecode : Obligations.SpecWordsDecode :=
  ⟨rfl, rfl, rfl, rfl, rfl, rfl, rfl, rfl⟩

end Sys2Proof.Proofs
end

section
/-! The WIRE rows and DEC (30_encoding R62 to R69; 43_decoder R130 to R139): DEC is its function of the whole source
buffer, and a row run as an instruction does what that function does with the row's encoding. -/

namespace Sys2Proof.Machine

/-! ### DEC of whole buffers -/

theorem length_buffer (s : State) : s.buffer.length = s.bufLen := Memory.length_bytes ..

theorem buffer_getD (s : State) {i : Nat} (h : i < s.bufLen) : s.buffer.getD i 0 = s.bufByte i := Memory.getD_bytes _ h

/-- DEC's function sees of the source what the whole buffer holds (10_state R26). -/
theorem decBuffer_buffer (s : State) : Codec.decBuffer s.buffer = Codec.dec s.bufLen s.bufByte := by
  rw [Codec.decBuffer, length_buffer]
  apply dec_congr (.inl rfl)
  intro i hi
  exact buffer_getD s (hi.trans_le (decTouches_le _ _).2)

/-- DEC of a header and the payload it calls for, whatever follows. -/
theorem decBuffer_of_payloadCount {header : Byte} {payload : List Byte} (h : payload.length = payloadCount header)
    (rest : List Byte) :
    Codec.decBuffer (header :: (payload ++ rest)) =
      if Codec.dsize header = 1 then .ok (header.setWidth 64, 1)
      else Codec.finish (trailing payload) (Codec.dsize header) := by
  have hsize := dsize_eq_payloadCount header
  have hlen : Codec.dsize header - 1 = payload.length := by omega
  rw [decBuffer_cons, hlen, List.take_left' rfl, if_neg (by rw [List.length_append]; omega)]

/-- DEC of a multi-byte encoding, minimal or not, ends with its trailing value (43_decoder R139). -/
theorem decBuffer_multiBytes {size : Nat} {x : U64} (h2 : 2 ≤ size) (h9 : size ≤ 9) (hx : x.toNat < 256 ^ (size - 1)) :
    Codec.decBuffer (multiBytes size x) = Codec.finish x size := by
  have hsize := dsize_multiHeader h2 h9
  have hheader := multiHeader_toNat h2 h9
  have hdec := decBuffer_beBytes (header := multiHeader size) (t := x) (by omega) (by rwa [hsize])
  rwa [hsize] at hdec

/-- Up to the bound the end of a multi-byte decode is the exact sum, whatever the size (43_decoder R134). -/
theorem finish_of_le {x : U64} (h : x.toNat ≤ 0xFFFFFFFFFFFFFF07) :
    ∃ v : U64, v.toNat = x.toNat + 248 ∧ ∀ n, Codec.finish x n = .ok (v, n) := by
  refine ⟨x + BitVec.ofNat 64 Config.BASE, ?_, fun n => if_neg (Nat.not_lt.2 h)⟩
  rw [BitVec.toNat_add, show (BitVec.ofNat 64 Config.BASE).toNat = 248 from rfl]
  omega

/-- Only a header of nine bytes leaves room for a trailing value above the bound (43_decoder R135). -/
theorem header_of_decBuffer_overflow {header : Byte} {payload : List Byte}
    (h : Codec.decBuffer (header :: payload) = .error .overflow) : header = 0xFF := by
  have h9 := dsize_le header
  rw [← dsize_eq_nine_iff]
  rw [decBuffer_cons] at h
  split_ifs at h with hshort hone
  · cases h
  · rw [finish_eq_overflow_iff, trailing_toNat _ (by rw [List.length_take]; omega)] at h
    have hlt := bigEndian_take_lt payload (Codec.dsize header - 1)
    by_contra hne
    have hpow : 256 ^ (Codec.dsize header - 1) ≤ 256 ^ 7 := Nat.pow_le_pow_right (by omega) (by omega)
    omega

/-! ### A row as an instruction -/

/-- A row does what DEC does with any source that begins with its encoding (log 8). -/
theorem exec_of_isRowOf {i : Instr} {h : Byte} {payload : List Byte} (hrow : IsRowOf i h payload) (s : State)
    (rest : List Byte) :
    exec i s = .next (s.reply (decResult (Codec.decBuffer (h :: (payload ++ rest)))) []) := by
  obtain ⟨hlen, rfl, -⟩ := hrow
  rw [exec_wireRow, finishDecode_eq, decBuffer_of_payloadCount hlen]

/-- The row the decoder reads from a byte sequence does what DEC does with that sequence. -/
theorem exec_of_decodeWire_ok {bytes rest : List Byte} {i : Instr} (h : decodeWire bytes = .ok (i, rest)) (s : State) :
    exec i s = .next (s.reply (decResult (Codec.decBuffer bytes)) []) := by
  obtain ⟨header, payload, hlen, rfl, rfl⟩ := decodeWire_ok h
  exact exec_of_isRowOf ⟨hlen, rfl, (encode_wireRow hlen).2⟩ s rest

theorem multiByte_repliedOnly (s : State) {t : U64} {n : Nat} {x : Except Err (U64 × Nat)} (h : Codec.finish t n = x) :
    s.repliedOnly (s.multiByte t n) (decResult x) := by
  rw [State.multiByte, finishDecode_eq, h]
  exact repliedOnly_reply s _

end Sys2Proof.Machine

namespace Sys2Proof.Proofs

open Sys2Proof.Machine

/-- Settles O24: DEC's function of the encoding gives the value (`decBuffer_multiBytes`), and so it does of any source
that begins with those bytes (`dec_ok_of_same_bytes`). -/
theorem nonMinimalAccepted : Obligations.NonMinimalAccepted := by
  intro s size x hquiet h2 h9 hfits hbound hlen hbytes
  obtain ⟨v, hv, hfinish⟩ := finish_of_le hbound
  have hdec : Codec.dec s.bufLen s.bufByte = .ok (v, size) :=
    dec_ok_of_same_bytes ((decBuffer_multiBytes h2 h9 hfits).trans (hfinish size)) hlen hbytes
  obtain ⟨t, hexec, hreply⟩ := execDec_repliedOnly hquiet
  rw [hdec] at hreply
  exact ⟨t, v, hexec, hreply, hv⟩

/-- Settles O33: a trailing value above the bound ends in Overflow (`finish_eq_overflow_iff`); a well-formed row that
overflows has the one header with room for such a value, and W9 is the row of that header. -/
theorem onlyRowW9Overflows : Obligations.OnlyRowW9Overflows := by
  constructor
  · intro s x hover
    exact ⟨_, rfl, multiByte_repliedOnly s ((finish_eq_overflow_iff x 9).2 hover)⟩
  · intro i s t hwf hwire hexec hanswer
    obtain ⟨h, payload, hrow⟩ := exists_isRowOf hwf hwire
    rw [exec_of_isRowOf hrow s []] at hexec
    obtain rfl := Host.Outcome.next.inj hexec
    rw [answered_reply, decResult_eq_failure_iff] at hanswer
    obtain rfl := header_of_decBuffer_overflow hanswer
    exact ⟨trailing payload, hrow.2.1⟩

/-- Settles O34: both are DEC's function of the source buffer (`decBuffer_buffer`, `exec_of_decodeWire_ok`). -/
theorem decRunsTheRowOfItsSource : Obligations.DecRunsTheRowOfItsSource := by
  intro s i rest hquiet hdecode
  rw [exec_of_decodeWire_ok hdecode s, decBuffer_buffer]
  exact execDec_quiet hquiet

/-- Settles O35: the decoder of encodings rejects the source (`decodeWire_buffer`) in the two cases in which DEC finds
it too short (`dec_eq_insufficientBuffer_iff`). -/
theorem decInsufficientExactlyWhenUndecodable : Obligations.DecInsufficientExactlyWhenUndecodable := by
  intro s t hexec
  rw [answered_failure_iff_of_dec hexec, dec_eq_insufficientBuffer_iff]
  rcases decodeWire_buffer s with ⟨hempty, hdec⟩ | ⟨-, hshort, hdec⟩ | ⟨hne, hlen, rest, hdec⟩
  · exact iff_of_true (.inl hempty) ⟨_, hdec⟩
  · exact iff_of_true (.inr hshort) ⟨_, hdec⟩
  · rw [hdec]
    exact iff_of_false (by omega) (by simp)

/-- Settles O31: each of the five rows ends a decode with its header and the count 1. -/
theorem singleByteRows : Obligations.SingleByteRows := by
  intro s b
  have hreply := repliedOnly_reply s (.decoded (b.setWidth 64) 1)
  exact ⟨⟨_, rfl, hreply⟩, ⟨_, rfl, hreply⟩, ⟨_, rfl, hreply⟩, ⟨_, rfl, hreply⟩, ⟨_, rfl, hreply⟩,
    BitVec.toNat_setWidth_of_le (by omega)⟩

/-- Settles O32: each of the eight rows ends a multi-byte decode (`multiByte_repliedOnly`) with the one sum
`finish_of_le` gives for every size. -/
theorem multiByteRows : Obligations.MultiByteRows := by
  intro s x hbound
  obtain ⟨v, hv, hfinish⟩ := finish_of_le hbound
  have hreply (n : Nat) : s.repliedOnly (s.multiByte x n) (.decoded v n) := multiByte_repliedOnly s (hfinish n)
  exact ⟨v, hv, ⟨_, rfl, hreply 2⟩, ⟨_, rfl, hreply 3⟩, ⟨_, rfl, hreply 4⟩, ⟨_, rfl, hreply 5⟩, ⟨_, rfl, hreply 6⟩,
    ⟨_, rfl, hreply 7⟩, ⟨_, rfl, hreply 8⟩, ⟨_, rfl, hreply 9⟩⟩

end Sys2Proof.Proofs
end

section
/-! Steps, refusals and the invariant (10_state R25 to R28; 60_exceptions section 1): which requests are answered, what
an answer changes, and that it leaves memory in canonical form and a response that agrees with itself. -/

namespace Sys2Proof.Machine

/-! ### Refusals -/

theorem not_alone_of_overlaps {s : State} {n : Nat} {w : Bool} (h : s.overlaps n w = true) :
    s.req.concurrent ≠ [] := by
  intro halone
  rw [overlaps_of_alone halone] at h
  cases h

/-- Only ENC and DEC are refused, and only beside a declared unordered invocation (20_memory R54). -/
theorem exec_refused {i : Instr} {s : State} {why : Refusal} (h : exec i s = .refused why) :
    (i = .enc ∨ i = .dec) ∧ s.req.concurrent ≠ [] ∧ why = .unserializedOverlap := by
  cases i with
  | enc =>
    refine ⟨.inl rfl, ?_⟩
    simp only [exec] at h
    rcases Nat.lt_or_ge s.bufLen (Codec.esize s.value) with hshort | hfits
    · rw [execEnc_short hshort] at h
      cases h
    · rw [execEnc_fits hfits] at h
      split at h
      next hover => exact ⟨not_alone_of_overlaps hover, (Host.Outcome.refused.inj h).symm⟩
      next => cases h
  | dec =>
    refine ⟨.inr rfl, ?_⟩
    simp only [exec, execDec_eq] at h
    split at h
    next hover => exact ⟨not_alone_of_overlaps hover, (Host.Outcome.refused.inj h).symm⟩
    next => cases h
  | _ => cases h

/-- With no unordered invocation every instruction answers: nothing faults (60_exceptions R208). -/
theorem exec_answers_of_alone (i : Instr) {s : State} (h : s.req.concurrent = []) : ∃ t, exec i s = .next t := by
  cases hexec : exec i s with
  | next t => exact ⟨t, rfl⟩
  | fault f => cases f
  | refused why =>
    obtain ⟨-, hne, -⟩ := exec_refused hexec
    exact absurd h hne

/-- The request a refused step would have served: its select code names nothing, or its instruction is refused. -/
theorem step_refused {s : State} {why : Refusal} (h : step s = .refused why) :
    ∃ r rest, s.pending = r :: rest ∧
      ((6 ≤ r.op.toNat ∧ why = .unassignedSelect r.op) ∨
        ∃ i, decodeSelect r.op = .ok i ∧ exec i { s with req := r, pending := rest } = .refused why) := by
  cases hp : s.pending with
  | nil =>
    simp only [step, State.present?, hp] at h
    cases h
  | cons r rest =>
    refine ⟨r, rest, rfl, ?_⟩
    rcases decodeSelect_cases r.op with ⟨-, i, hd, -, -⟩ | ⟨h6, hd⟩
    · rw [step_of_decodeSelect_ok hp hd] at h
      exact .inr ⟨i, hd, h⟩
    · rw [step_of_decodeSelect_error hp hd] at h
      exact .inl ⟨h6, (Host.Outcome.refused.inj h).symm⟩

theorem step_idle {s : State} (h : s.pending = []) : step s = .next s := by
  simp only [step, State.present?, h]

/-- An admitted request is served: its select code names an instruction, which answers. -/
theorem step_admitted {s : State} {r : Request} {rest : List Request} (hp : s.pending = r :: rest) (h : r.admitted) :
    ∃ i t, decodeSelect r.op = .ok i ∧ exec i { s with req := r, pending := rest } = .next t ∧ step s = .next t := by
  obtain ⟨hop, halone⟩ := h
  rcases decodeSelect_cases r.op with ⟨-, i, hd, -, -⟩ | ⟨h6, -⟩
  · obtain ⟨t, hexec⟩ := exec_answers_of_alone i (s := { s with req := r, pending := rest }) halone
    exact ⟨i, t, hd, hexec, (step_of_decodeSelect_ok hp hd).trans hexec⟩
  · omega

/-! ### The invariant -/

/-- A coherent reply keeps the invariant: writing keeps the canonical form, and the reply's number is drawn now. -/
theorem inv_reply {s : State} {res : Result} {bs : List Byte} (hwf : s.mem.wf)
    (hc : (Response.mk res bs s.draws).coherent) : (s.reply res bs).Inv := by
  refine ⟨Memory.wf_writeBytes hwf _ _, ?_⟩
  rintro p ⟨⟩
  exact ⟨hc, Nat.lt_succ_self _⟩

/-- A reply that stores nothing, for a result other than ENC's, is coherent when its result is in range. -/
theorem coherent_of_stored_nil {res : Result} {draw : Nat} (hr : res.inRange) (hne : ∀ n, res ≠ .written n) :
    (Response.mk res [] draw).coherent := by
  refine ⟨hr, ?_⟩
  cases res with
  | written n => exact absurd rfl (hne n)
  | _ => rfl

/-- What DEC's function gives is in range (10_state R26; 30_encoding R68). -/
theorem inRange_decResult (len : Nat) (f : Nat → Byte) : (decResult (Codec.dec len f)).inRange := by
  cases hx : Codec.dec len f with
  | error e => trivial
  | ok y =>
    obtain ⟨v, n⟩ := y
    obtain ⟨rfl, -, hbase⟩ := dec_ok hx
    exact ⟨dsize_pos _, dsize_le _, hbase⟩

/-- Every well-formed instruction answers in range. -/
theorem exec_inRange {i : Instr} {s t : State} {res : Result} (hwf : i.wellFormed = true) (h : exec i s = .next t)
    (hres : t.answered res) : res.inRange := by
  rcases Nat.eq_zero_or_pos i.wireSize with hop | hwire
  · cases i with
    | esize =>
      rw [execEsize_next h, answered_reply] at hres
      exact hres ▸ ⟨esize_pos _, esize_le _⟩
    | enc =>
      rcases execEnc_next h with ⟨-, rfl⟩ | ⟨-, rfl⟩
      · rw [State.fail, answered_reply] at hres
        exact hres ▸ trivial
      · rw [answered_reply] at hres
        exact hres ▸ ⟨esize_pos _, esize_le _⟩
    | dsize =>
      rw [execDsize_next h, answered_reply] at hres
      exact hres ▸ ⟨dsize_pos _, dsize_le _⟩
    | dec =>
      rw [execDec_next h, answered_reply] at hres
      exact hres ▸ inRange_decResult _ _
    | zzenc =>
      rw [execZzenc_next h, answered_reply] at hres
      exact hres ▸ trivial
    | zzdec =>
      rw [execZzdec_next h, answered_reply] at hres
      exact hres ▸ trivial
    | _ => cases hop
  · obtain ⟨header, payload, hrow⟩ := exists_isRowOf hwf hwire
    rw [exec_of_isRowOf hrow s []] at h
    obtain rfl := Host.Outcome.next.inj h
    rw [answered_reply] at hres
    exact hres ▸ inRange_decResult _ _

/-- Every well-formed instruction that answers keeps the invariant. -/
theorem exec_inv {i : Instr} {s t : State} (hwf : i.wellFormed = true) (hs : s.Inv) (h : exec i s = .next t) :
    t.Inv := by
  obtain ⟨hmem, -⟩ := hs
  have hrange := fun res => exec_inRange (res := res) hwf h
  obtain ⟨res, bs, rfl, ⟨rfl, hne⟩ | ⟨-, rfl, rfl⟩⟩ := exec_next h
  · exact inv_reply hmem (coherent_of_stored_nil (hrange res ((answered_reply ..).2 rfl)) hne)
  · exact inv_reply hmem ⟨hrange _ ((answered_reply ..).2 rfl), length_encoding s.value⟩

/-! ### Where an answer does not look -/

/-- Two states with the same request on the lines, and for DEC the same bytes of its source, present the same
operands. -/
theorem sameOperands_of_same_request {i : Instr} {s s' : State} (hreq : s'.req = s.req)
    (hbytes : i = .dec → ∀ k, k < s.bufLen → s'.bufByte k = s.bufByte k) : State.sameOperands i s s' := by
  cases i with
  | esize | zzdec | zzenc => exact congrArg Request.a hreq
  | dsize => exact congrArg Request.hdr hreq
  | enc => exact ⟨congrArg Request.a hreq, congrArg Request.len hreq⟩
  | dec =>
    refine ⟨congrArg Request.len hreq, fun k hk => hbytes rfl k (hk.trans_le (decTouches_le _ _).2)⟩
  | _ => trivial

end Sys2Proof.Machine

namespace Sys2Proof.Proofs

open Sys2Proof.Machine

/-- Settles O45: a step that answers is idle or runs the instruction of a select code, which is well-formed
(`decodeSelect_ok`), from a state with the same memory and response. -/
theorem stepKeepsInvariant : Obligations.StepKeepsInvariant := by
  intro s t hs hstep
  rcases step_next hstep with ⟨-, rfl⟩ | ⟨r, rest, i, -, hd, hexec⟩
  · exact hs
  · exact exec_inv (s := { s with req := r, pending := rest }) (decodeSelect_ok hd).2 hs hexec

/-- Settles O46: an answer is a reply that is in range and stores as many bytes as it reports (`exec_inv`). -/
theorem execKeepsInvariant : Obligations.ExecKeepsInvariant := by
  intro i s t hwf hs hexec
  exact exec_inv hwf hs hexec

/-- Settles O47: the empty memory is in canonical form, and there is no response. -/
theorem resetMeetsInvariant : Obligations.ResetMeetsInvariant := by
  refine ⟨⟨.nil, ?_⟩, ?_⟩
  · rintro c ⟨⟩
  · rintro p ⟨⟩

/-- Settles O44: an answer is a reply that stores nothing, or ENC's that stores as many bytes as it reports
(`exec_next`). -/
theorem frameOfEveryInstruction : Obligations.FrameOfEveryInstruction := by
  intro i s t hwf hexec
  obtain ⟨res, bs, rfl, ⟨rfl, hne⟩ | ⟨rfl, rfl, rfl⟩⟩ := exec_next hexec
  · refine ⟨⟨rfl, rfl⟩, fun _ _ => rfl, ?_, fun _ _ => rfl⟩
    intro n hn
    exact absurd ((answered_reply ..).1 hn) (hne n)
  · refine ⟨⟨rfl, rfl⟩, fun hne => absurd rfl hne, ?_, ?_⟩
    · intro n hn
      obtain rfl : Codec.esize s.value = n := Result.written.inj ((answered_reply ..).1 hn)
      refine ⟨rfl, ?_⟩
      rw [← length_encoding]
      exact sameMemoryOutside_reply hwf _ _
    · intro hnot
      exact absurd ((answered_reply ..).2 rfl) (hnot _)

/-- Settles O42: a refused step met an unassigned select code or a refused instruction (`step_refused`), which is an ENC
or a DEC beside an unordered invocation (`exec_refused`). -/
theorem stepRefusesOnlyInadmissible : Obligations.StepRefusesOnlyInadmissible := by
  intro s why hstep
  obtain ⟨r, rest, hp, hunassigned | ⟨i, hd, hexec⟩⟩ := step_refused hstep
  · exact ⟨r, rest, hp, .inl hunassigned⟩
  · obtain ⟨hi, hconcurrent, hwhy⟩ := exec_refused hexec
    obtain ⟨henc, -⟩ := decodeSelect_ok hd
    refine ⟨r, rest, hp, .inr ⟨?_, hconcurrent, hwhy⟩⟩
    rcases hi with rfl | rfl
    · exact .inl (Code.select.inj henc).symm
    · exact .inr (Code.select.inj henc).symm

/-- Settles O43: an admitted request is served (`step_admitted`), by a reply, which changes no request. -/
theorem stepAnswersAdmitted : Obligations.StepAnswersAdmitted := by
  intro s r rest hp hadmitted
  obtain ⟨i, t, -, hexec, hstep⟩ := step_admitted hp hadmitted
  obtain ⟨res, bs, rfl, -⟩ := exec_next hexec
  exact ⟨_, hstep, rfl, rfl, rfl⟩

/-- Settles O40: the two cases of the step (`step_of_decodeSelect_ok`, `step_idle`). -/
theorem stepRunsTheOldestRequest : Obligations.StepRunsTheOldestRequest :=
  ⟨fun _ _ _ _ hp hd => step_of_decodeSelect_ok hp hd, fun _ hp => step_idle hp⟩

/-- Settles O48: both steps run the one instruction of the request, from states that present the same operands
(`sameOperands_of_same_request`), and so give the same reply. -/
theorem firstOperationIsLikeAnyOther : Obligations.FirstOperationIsLikeAnyOther := by
  refine ⟨rfl, rfl, ?_⟩
  intro r s t t' q hmem hpending hstep hstep' hanswer
  have hp' : (s.issue r).pending = [r] := by rw [issue_pending, hpending, List.nil_append]
  rcases decodeSelect_cases r.op with ⟨-, i, hd, -, -⟩ | ⟨-, hd⟩
  · rw [step_of_decodeSelect_ok (s := State.reset.issue r) rfl hd] at hstep
    rw [step_of_decodeSelect_ok hp' hd] at hstep'
    have hoperands := sameOperands_of_same_request (i := i)
      (s := { State.reset.issue r with req := r, pending := [] }) (s' := { s.issue r with req := r, pending := [] })
      rfl (fun _ k _ => congrArg (Memory.read · (r.base + k)) hmem)
    obtain ⟨res, bs, rfl, rfl⟩ := exec_congr_of_sameOperands hoperands hstep hstep'
    rwa [answered_reply] at hanswer ⊢
  · rw [step_of_decodeSelect_error (s := State.reset.issue r) rfl hd] at hstep
    cases hstep

end Sys2Proof.Proofs
end

section
/-! Requests and the caller's memory (20_memory R41 to R55; 45_arithmetic_and_laws R186): a request served twice, a
request beside an unordered one, two requests in either order, and a signed value through the four operations. -/

namespace Sys2Proof.Machine

/-! ### Writes to the same and to other bytes -/

/-- Writing a run of bytes again changes nothing. -/
theorem Memory.writeBytes_self {m : Memory} (h : m.wf) (a : Nat) (bs : List Byte) :
    (m.writeBytes a bs).writeBytes a bs = m.writeBytes a bs := by
  have h1 := Memory.wf_writeBytes h a bs
  refine Memory.ext_of_wf (Memory.wf_writeBytes h1 a bs) h1 fun x => ?_
  rw [Memory.read_writeBytes h1, Memory.read_writeBytes h]
  split_ifs <;> rfl

/-- Runs of bytes that share no address may be written in either order. -/
theorem Memory.writeBytes_comm {m : Memory} (h : m.wf) {a b : Nat} {bs cs : List Byte}
    (hdisjoint : a + bs.length ≤ b ∨ b + cs.length ≤ a) :
    (m.writeBytes a bs).writeBytes b cs = (m.writeBytes b cs).writeBytes a bs := by
  have h1 := Memory.wf_writeBytes h a bs
  have h2 := Memory.wf_writeBytes h b cs
  refine Memory.ext_of_wf (Memory.wf_writeBytes h1 b cs) (Memory.wf_writeBytes h2 a bs) fun x => ?_
  rw [Memory.read_writeBytes h1, Memory.read_writeBytes h, Memory.read_writeBytes h2, Memory.read_writeBytes h]
  by_cases hx : b ≤ x ∧ x < b + cs.length
  · rw [if_pos hx, if_neg (by omega), if_pos hx]
  · rw [if_neg hx, if_neg hx]

/-! ### Overlap with unordered invocations -/

/-- Two runs of bytes meet exactly when some address lies in both. -/
theorem Extent.meets_iff (e : Extent) (base n : Nat) :
    e.meets base n = true ↔ ∃ a, base ≤ a ∧ a < base + n ∧ e.base ≤ a ∧ a < e.base + e.len := by
  rw [Extent.meets, decide_eq_true_iff]
  constructor
  · intro h
    exact ⟨max base e.base, by omega⟩
  · rintro ⟨a, h⟩
    omega

/-- An overlap is a declared extent, an ENC's or beside one, with an address in common (20_memory R54). -/
theorem overlaps_iff (s : State) (n : Nat) (w : Bool) :
    s.overlaps n w = true ↔ ∃ e ∈ s.req.concurrent, (w = true ∨ e.writes = true) ∧
      ∃ a, s.req.base ≤ a ∧ a < s.req.base + n ∧ e.base ≤ a ∧ a < e.base + e.len := by
  simp only [State.overlaps, List.any_eq_true, Bool.and_eq_true, Bool.or_eq_true, Extent.meets_iff]

theorem exec_enc_refused_iff {s : State} (h : Codec.esize s.value ≤ s.bufLen) :
    exec .enc s = .refused .unserializedOverlap ↔ s.overlaps (Codec.esize s.value) true = true := by
  simp only [exec, execEnc_fits h]
  split
  next hover => exact iff_of_true rfl hover
  next hquiet => exact iff_of_false (by simp) hquiet

theorem exec_dec_refused_iff (s : State) :
    exec .dec s = .refused .unserializedOverlap ↔
      s.overlaps (Codec.decTouches s.bufLen s.bufByte) false = true := by
  simp only [exec, execDec_eq]
  split
  next hover => exact iff_of_true rfl hover
  next hquiet => exact iff_of_false (by simp) hquiet

/-! ### Two requests in either order -/

/-- An answer stores bytes within the buffer operand, and only ENC stores any. -/
theorem exec_next_within {i : Instr} {s t : State} (h : exec i s = .next t) :
    ∃ res bs, t = s.reply res bs ∧ (bs = [] ∨ i = .enc ∧ bs.length ≤ s.bufLen) := by
  obtain ⟨res, bs, ht, ⟨hbs, -⟩ | ⟨rfl, -, -⟩⟩ := exec_next h
  · exact ⟨res, bs, ht, .inl hbs⟩
  · rcases execEnc_next h with ⟨-, ht⟩ | ⟨hfits, ht⟩
    · exact ⟨_, _, ht, .inl rfl⟩
    · exact ⟨_, _, ht, .inr ⟨rfl, by rwa [length_encoding]⟩⟩

theorem reply_injective {s : State} {res res' : Result} {bs bs' : List Byte} (h : s.reply res bs = s.reply res' bs') :
    res = res' ∧ bs = bs' := by
  have hresponse := Option.some.inj (congrArg State.response h)
  exact ⟨congrArg Response.result hresponse, congrArg Response.stored hresponse⟩

/-- Served next in `s`, before whatever other requests, `r` is answered by the reply `res` that stores `bs`. -/
def Request.repliesIn (r : Request) (s : State) (res : Result) (bs : List Byte) : Prop :=
  ∀ rest, step { s with pending := r :: rest } =
    .next (({ s with req := r, pending := rest } : State).reply res bs)

/-- The bytes of a request's buffer are the same in two states. -/
def Request.sameBuffer (r : Request) (s s' : State) : Prop :=
  ∀ k, k < r.len → s'.mem.read (r.base + k) = s.mem.read (r.base + k)

/-- A reply to an admitted request is its reply in every state, if DEC finds the same bytes (45_arithmetic_and_laws
R187). -/
theorem repliesIn_of_exec {s s' : State} {r : Request} {i : Instr} {rest : List Request} {res : Result}
    {bs : List Byte} (h : r.admitted) (hd : decodeSelect r.op = .ok i)
    (hexec : exec i { s with req := r, pending := rest } =
      .next (({ s with req := r, pending := rest } : State).reply res bs))
    (hbytes : r.op = 3 → r.sameBuffer s s') : r.repliesIn s' res bs := by
  intro rest'
  have hop : i = .dec → r.op = 3 := by
    rintro rfl
    exact (Code.select.inj (decodeSelect_ok hd).1).symm
  have hoperands := sameOperands_of_same_request (i := i) (s := { s with req := r, pending := rest })
    (s' := { s' with req := r, pending := rest' }) rfl (fun hi => hbytes (hop hi))
  obtain ⟨t, hexec'⟩ := exec_answers_of_alone i (s := { s' with req := r, pending := rest' }) h.2
  obtain ⟨res', bs', hreply, rfl⟩ := exec_congr_of_sameOperands hoperands hexec hexec'
  obtain ⟨rfl, rfl⟩ := reply_injective hreply
  exact (step_of_decodeSelect_ok rfl hd).trans hexec'

/-- An admitted request is answered by one reply, in its state and in every state in which DEC finds the same bytes. -/
theorem exists_repliesIn {r : Request} (h : r.admitted) (s : State) :
    ∃ res bs, (bs = [] ∨ r.op = 1 ∧ bs.length ≤ r.len) ∧
      ∀ s' : State, (r.op = 3 → r.sameBuffer s s') → r.repliesIn s' res bs := by
  obtain ⟨i, t, hd, hexec, -⟩ := step_admitted (s := { s with pending := [r] }) rfl h
  obtain ⟨res, bs, rfl, hbs⟩ := exec_next_within hexec
  refine ⟨res, bs, ?_, fun s' => repliesIn_of_exec h hd hexec⟩
  rcases hbs with hnil | ⟨rfl, hlen⟩
  · exact .inl hnil
  · exact .inr ⟨(Code.select.inj (decodeSelect_ok hd).1).symm, hlen⟩

theorem Request.commutesWith_symm {r q : Request} (h : r.commutesWith q) : q.commutesWith r := by
  unfold Request.commutesWith at h ⊢
  tauto

/-- An ENC and a DEC or another ENC that commute have no byte in common (20_memory R55). -/
theorem disjoint_of_commutesWith {r q : Request} (h : r.commutesWith q) (hr : r.op = 1) (hq : q.op = 1 ∨ q.op = 3) :
    r.base + r.len ≤ q.base ∨ q.base + q.len ≤ r.base := by
  unfold Request.commutesWith at h
  tauto

/-- What a request stores leaves the source of a DEC that commutes with it as it was. -/
theorem sameBuffer_of_commutesWith {s t : State} {r q : Request} {bs : List Byte} (hwf : s.mem.wf)
    (hc : r.commutesWith q) (hbs : bs = [] ∨ r.op = 1 ∧ bs.length ≤ r.len) (ht : t.mem = s.mem.writeBytes r.base bs)
    (hq : q.op = 3) : q.sameBuffer s t := by
  intro k hk
  rcases hbs with rfl | ⟨hr, hlen⟩
  · rw [ht, Memory.writeBytes]
  · have hdisjoint := disjoint_of_commutesWith hc hr (.inr hq)
    rw [ht, Memory.read_writeBytes hwf, if_neg (by omega)]

/-- What two commuting requests store may be stored in either order. -/
theorem writeBytes_comm_of_commutesWith {m : Memory} {r q : Request} {bs cs : List Byte} (hwf : m.wf)
    (hc : r.commutesWith q) (hbs : bs = [] ∨ r.op = 1 ∧ bs.length ≤ r.len)
    (hcs : cs = [] ∨ q.op = 1 ∧ cs.length ≤ q.len) :
    (m.writeBytes r.base bs).writeBytes q.base cs = (m.writeBytes q.base cs).writeBytes r.base bs := by
  rcases hbs with rfl | ⟨hr, hblen⟩
  · rfl
  rcases hcs with rfl | ⟨hq, hclen⟩
  · rfl
  have hdisjoint := disjoint_of_commutesWith hc hr (.inl hq)
  exact Memory.writeBytes_comm hwf (by omega)

/-! ### A signed value through the four operations -/

/-- A step whose oldest request is a ZZENC leaves memory and the requests after it as they are. -/
theorem step_zzenc {s : State} {r : Request} {rest : List Request} (hp : s.pending = r :: rest) (hop : r.op = 4) :
    ∃ t, step s = .next t ∧ t.mem = s.mem ∧ t.pending = rest := by
  have hselect : decodeSelect r.op = .ok .zzenc := by rw [hop]; rfl
  exact ⟨_, step_of_decodeSelect_ok hp hselect, rfl, rfl⟩

/-- A step whose oldest request is a ZZDEC replies with its function of the operand. -/
theorem step_zzdec {s : State} {r : Request} {rest : List Request} (hp : s.pending = r :: rest) (hop : r.op = 5) :
    step s = .next (({ s with req := r, pending := rest } : State).reply (.signed (Codec.zzdec r.a)) []) := by
  have hselect : decodeSelect r.op = .ok .zzdec := by rw [hop]; rfl
  rw [step_of_decodeSelect_ok hp hselect]
  rfl

/-- The second request of SDEC, after a DEC that succeeded, is a ZZDEC of its value (30_encoding R78). -/
theorem sdecNext_of_answered {t : State} {w : U64} {n : Nat} (h : t.answered (.decoded w n)) :
    Script.sdecNext t = [Script.zzdec w] := by
  obtain ⟨⟨res, stored, draw⟩, hresponse, rfl⟩ := h
  simp only [Script.sdecNext, hresponse]

end Sys2Proof.Machine

namespace Sys2Proof.Proofs

open Sys2Proof.Machine

/-- Settles O16: the second ENC fails as the first did, or stores the same bytes again (`Memory.writeBytes_self`); a DEC
stores none, so the second finds the same source. -/
theorem repeatingChangesNothing : Obligations.RepeatingChangesNothing := by
  constructor
  · intro s t u hwf hexec hexec'
    rcases execEnc_next hexec with ⟨hshort, rfl⟩ | ⟨hfits, rfl⟩ <;>
      rcases execEnc_next hexec' with ⟨hshort', rfl⟩ | ⟨hfits', rfl⟩
    · refine ⟨rfl, fun r hr => ?_⟩
      rwa [State.fail, answered_reply] at hr ⊢
    · exact absurd hshort (Nat.not_lt.2 hfits')
    · exact absurd hshort' (Nat.not_lt.2 hfits)
    · refine ⟨Memory.writeBytes_self hwf _ _, fun r hr => ?_⟩
      rwa [answered_reply] at hr ⊢
  · intro s t u hexec hexec'
    obtain rfl := execDec_next hexec
    obtain rfl := execDec_next hexec'
    refine ⟨rfl, rfl, fun r hr => ?_⟩
    rwa [answered_reply] at hr ⊢

/-- Settles O17: ENC and DEC are refused on an overlap (`exec_enc_refused_iff`, `exec_dec_refused_iff`), which is an
address in common (`overlaps_iff`). -/
theorem unserializedOverlapRefused : Obligations.UnserializedOverlapRefused := by
  intro s
  constructor
  · intro hfits
    rw [exec_enc_refused_iff hfits, overlaps_iff]
    simp only [true_or, true_and]
  · rw [exec_dec_refused_iff, overlaps_iff]
    simp only [Bool.false_eq_true, false_or]

/-- Settles O51: each request has one reply in whichever place it is served (`exists_repliesIn`), since the other leaves
its source as it was (`sameBuffer_of_commutesWith`); and the bytes stored commute. -/
theorem disjointRequestsCommute : Obligations.DisjointRequestsCommute := by
  intro s r q rest hwf hr hq hc
  obtain ⟨res, bs, hbs, hreplies⟩ := exists_repliesIn hr s
  obtain ⟨res', bs', hbs', hreplies'⟩ := exists_repliesIn hq s
  have hfirst := hreplies s (fun _ _ _ => rfl) (q :: rest)
  have hfirst' := hreplies' s (fun _ _ _ => rfl) (r :: rest)
  have hsecond := hreplies' (({ s with req := r, pending := q :: rest } : State).reply res bs)
    (sameBuffer_of_commutesWith hwf hc hbs rfl) rest
  have hsecond' := hreplies (({ s with req := q, pending := r :: rest } : State).reply res' bs')
    (sameBuffer_of_commutesWith hwf (Request.commutesWith_symm hc) hbs' rfl) rest
  refine ⟨_, _, _, _, hfirst, hsecond, hfirst', hsecond', writeBytes_comm_of_commutesWith hwf hc hbs hbs', rfl, ?_, ?_⟩
  · intro x
    rw [answered_reply, answered_reply]
  · intro x
    rw [answered_reply, answered_reply]

/-- Settles O53: after the ZZENC, ENC and DEC give its value back (`roundTrip`), and the ZZDEC of that value gives the
signed one (`zzdec_zzenc`). -/
theorem signedRoundTrip : Obligations.SignedRoundTrip := by
  intro s v b hwf hlen hp
  obtain ⟨s', hzzenc, hmem, hpending⟩ := step_zzenc hp rfl
  obtain ⟨t, hrun, hanswer⟩ := roundTrip s' (Script.enc (Codec.zzenc v) b) (Script.dec b) [] (hmem ▸ hwf) hpending
    rfl rfl rfl rfl rfl hlen hlen
  have hzzdec := step_zzdec (s := { t with pending := Script.sdecNext t }) (sdecNext_of_answered hanswer) rfl
  refine ⟨t, _, (run_succ_of_step hzzenc 2).trans hrun, hanswer, hzzdec, ?_⟩
  rw [answered_reply]
  exact congrArg Result.signed (zzdec_zzenc v)

end Sys2Proof.Proofs
end

section
/-! The abstract level and the signals (10_state R26 to R30; 40_size_calculator R90; 45_arithmetic_and_laws R186): the
machine's answer as a function of whole buffers and as a function of signals, and the size tables. -/

namespace Sys2Proof.Machine

/-! ### Sizes -/

/-- The thresholds of 40_size_calculator R90 as numerals. -/
theorem esize_eq_thresholds (v : U64) :
    Codec.esize v =
      if v.toNat < 248 then 1
      else if v.toNat ≤ 503 then 2
      else if v.toNat ≤ 65783 then 3
      else if v.toNat ≤ 16777463 then 4
      else if v.toNat ≤ 4294967543 then 5
      else if v.toNat ≤ 1099511628023 then 6
      else if v.toNat ≤ 281474976710903 then 7
      else if v.toNat ≤ 72057594037928183 then 8
      else 9 := rfl

/-- ZZENC as a number: twice a nonnegative value, one less than twice the negation of a negative one (44_sign_transform
R152). -/
theorem zzenc_cases (v : I64) :
    (0 ≤ v.toInt ∧ ((Codec.zzenc v).toNat : Int) = 2 * v.toInt) ∨
      (v.toInt < 0 ∧ ((Codec.zzenc v).toNat : Int) = -2 * v.toInt - 1) := by
  rcases lt_or_ge v.toInt 0 with hneg | hnonneg
  · exact .inr ⟨hneg, zzenc_toNat_of_neg hneg⟩
  · exact .inl ⟨hnonneg, zzenc_toNat_of_nonneg hnonneg⟩

/-! ### ENC on whole buffers -/

/-- What a reply makes of the buffer operand: the stored bytes replace its first ones (10_state R30). -/
theorem buffer_reply {s : State} (hwf : s.mem.wf) (res : Result) {bs : List Byte} (h : bs.length ≤ s.bufLen) :
    (s.reply res bs).buffer = bs ++ s.buffer.drop bs.length := by
  have hlen := length_buffer s
  have hlen' : (s.reply res bs).buffer.length = s.bufLen := length_buffer _
  apply List.ext_getElem
  · rw [List.length_append, List.length_drop]
    omega
  · intro k h1 h2
    have hold := buffer_getD s (i := k) (by omega)
    have hnew := buffer_getD (s.reply res bs) (i := k) (hlen' ▸ h1)
    rw [bufByte_reply hwf, List.getD_eq_getElem _ _ h1] at hnew
    rw [hnew, List.getElem_append]
    split_ifs with hk
    · exact List.getD_eq_getElem _ _ hk
    · rw [List.getD_eq_default _ _ (Nat.not_lt.1 hk), List.getElem_drop, ← hold, List.getD_eq_getElem _ _ (by omega)]
      congr 1
      omega

theorem encBuffer_of_short {v : U64} {destination : List Byte} (h : destination.length < Codec.esize v) :
    Codec.encBuffer v destination = (.error .insufficientBuffer, destination) := by
  rw [Codec.encBuffer, enc_eq, if_pos h]

/-! ### The request as signals -/

theorem nine_lt_two_pow_lenw : 9 < 2 ^ Config.lenw :=
  calc 9 < 2 ^ 4 := by decide
    _ ≤ 2 ^ Config.lenw := Nat.pow_le_pow_right (by omega) (Nat.le_add_right ..)

/-- The signal can hold every `len` presented (10_state R27). -/
theorem presentedLen_lt (len draw : Nat) : presentedLen len draw < 2 ^ Config.lenw := by
  have hlenw := nine_lt_two_pow_lenw
  have hmod := Nat.mod_lt (Config.freeLen draw) (show 0 < 2 ^ Config.lenw - 9 by omega)
  rw [presentedLen]
  split_ifs <;> omega

/-- The `len` presented is the length, or both are at least the longest encoding (10_state R27). -/
theorem presentedLen_cases (len draw : Nat) :
    presentedLen len draw = len ∨ 9 ≤ len ∧ 9 ≤ presentedLen len draw := by
  have hlenw := nine_lt_two_pow_lenw
  rw [presentedLen]
  split_ifs
  · exact .inl rfl
  · exact .inr (by omega)

/-- The lanes of `din` hold the source's bytes (10_state R27). -/
theorem port_byte {s : State} {i : Nat} (h9 : i < 9) (hlen : i < s.bufLen) : s.port.byte i = s.bufByte i := by
  have hlane : s.port.byte i = s.presentedByte i := by interval_cases i <;> rfl
  rw [hlane, State.presentedByte, if_pos hlen]

/-- ENC cannot tell the `len` presented from the length: no encoding is longer than nine bytes. -/
theorem encReply_presentedLen (v : U64) (len draw : Nat) : encReply v (presentedLen len draw) = encReply v len := by
  have h9 := esize_le v
  have hiff : presentedLen len draw < Codec.esize v ↔ len < Codec.esize v := by
    rcases presentedLen_cases len draw with h | h
    · rw [h]
    · omega
  simp only [encReply, enc_eq, hiff]

/-- DEC of the signals is DEC of the source (10_state R32). -/
theorem dec_port (s : State) : Codec.dec s.port.len s.port.byte = Codec.dec s.bufLen s.bufByte := by
  have h9 := dsize_le (s.bufByte 0)
  apply dec_congr
  · rcases presentedLen_cases s.bufLen s.draws with h | ⟨hlen, hpresented⟩
    · exact .inl h
    · exact .inr ⟨h9.trans hlen, h9.trans hpresented⟩
  · intro i hi
    obtain ⟨htouch9, htouch⟩ := decTouches_le s.bufLen s.bufByte
    exact port_byte (hi.trans_le htouch9) (hi.trans_le htouch)

/-- What the machine answers is the reply of the request's signals. -/
theorem exec_port_reply {i : Instr} {s t : State} (hd : decodeSelect s.req.op = .ok i) (h : exec i s = .next t) :
    ∃ res bs, t = s.reply res bs ∧ s.port.reply = some (res, bs) := by
  have hcode := (decodeSelect_ok hd).1
  cases i with
  | esize => exact ⟨_, _, execEsize_next h, PortIn.reply_of_op_esize (Code.select.inj hcode).symm⟩
  | enc =>
    refine ⟨_, _, execEnc_eq_encReply h, ?_⟩
    rw [PortIn.reply_of_op_enc (Code.select.inj hcode).symm]
    exact congrArg some (encReply_presentedLen s.value s.bufLen s.draws)
  | dsize => exact ⟨_, _, execDsize_next h, PortIn.reply_of_op_dsize (Code.select.inj hcode).symm⟩
  | dec =>
    refine ⟨_, _, execDec_next h, ?_⟩
    rw [PortIn.reply_of_op_dec (Code.select.inj hcode).symm, dec_port]
  | zzenc => exact ⟨_, _, execZzenc_next h, PortIn.reply_of_op_zzenc (Code.select.inj hcode).symm⟩
  | zzdec => exact ⟨_, _, execZzdec_next h, PortIn.reply_of_op_zzdec (Code.select.inj hcode).symm⟩
  | _ => cases hcode

/-! ### The status, result and count lines -/

/-- The status code names the kind of the result, and no result has code 3 (10_state R28). -/
theorem status_iff (res : Result) :
    (res.status = 0 ↔ ∀ e, res ≠ .failure e) ∧ (res.status = 1 ↔ res = .failure .insufficientBuffer) ∧
      (res.status = 2 ↔ res = .failure .overflow) ∧ res.status ≠ 3 := by
  cases res with
  | failure e => cases e <;> simp [Result.status]
  | _ => simp [Result.status]

/-- A driven count of a result in range is in 1 to 9 (10_state R26). -/
theorem count_inRange {res : Result} {n : Nat} (h : res.inRange) (hn : res.count? = some n) : 1 ≤ n ∧ n ≤ 9 := by
  cases res with
  | size m | written m =>
    obtain rfl := Option.some.inj hn
    exact h
  | decoded v m =>
    obtain rfl := Option.some.inj hn
    exact ⟨h.1, h.2.1⟩
  | _ => cases hn

end Sys2Proof.Machine

namespace Sys2Proof.Proofs

open Sys2Proof.Machine

/-- Settles O1: ESIZE's one reply is the size, which the thresholds give (`esize_eq_thresholds`). -/
theorem esizeAnswersThresholdSize : Obligations.EsizeAnswersThresholdSize := by
  intro s
  rw [← esize_eq_thresholds]
  exact ⟨_, rfl, repliedOnly_reply s _⟩

/-- Settles O54: in each row the bounds of the signed ranges are those that doubling (`zzenc_cases`) takes to the bounds
of the size (`esize_cases`). -/
theorem signedSizeTable : Obligations.SignedSizeTable := by
  intro v size lo hi nlo nhi h
  have hsize := esize_cases (Codec.zzenc v)
  have hnumber := zzenc_cases v
  have hlow := v.le_toInt
  have hhigh := v.toInt_lt
  simp only [Claims.signedTable, List.cons_append, List.nil_append, List.mem_cons, List.not_mem_nil, or_false,
    Prod.mk.injEq] at h
  rcases h with h | h | h | h | h | h | h | h | h <;> obtain ⟨rfl, ⟨rfl, rfl⟩, rfl, rfl⟩ := h <;> omega

/-- Settles O56: ENC's reply makes of the destination what `encBuffer` does (`buffer_reply`), and DEC's function sees the
whole source (`decBuffer_buffer`). -/
theorem machineMeetsAbstractLevel : Obligations.MachineMeetsAbstractLevel := by
  constructor
  · intro s t hwf hexec
    have hlen := length_buffer s
    rcases execEnc_next hexec with ⟨hshort, rfl⟩ | ⟨hfits, rfl⟩
    · rw [encBuffer_of_short (by omega)]
      refine ⟨rfl, ?_⟩
      rintro x rfl
      exact (answered_reply ..).2 rfl
    · rw [encBuffer_of_fits (by omega)]
      constructor
      · rw [buffer_reply hwf _ (by rwa [length_encoding]), length_encoding]
      · rintro x rfl
        exact (answered_reply ..).2 rfl
  · intro s t hexec
    rw [execDec_next hexec, answered_reply, decBuffer_buffer]

/-- Settles O57: the presented length fits its signal, and the machine's reply is that of the signals
(`exec_port_reply`). -/
theorem portGivesTheMachinesSignals : Obligations.PortGivesTheMachinesSignals := by
  intro i s t hd hexec
  obtain ⟨res, bs, rfl, hreply⟩ := exec_port_reply hd hexec
  refine ⟨presentedLen_lt _ _, ?_⟩
  rw [PortIn.respond, hreply]
  rfl

/-- Settles O59: the status is one of three codes by the kind of the result (`status_iff`), and a count in range
(`count_inRange`) fits the four lines of `n`. -/
theorem statusAndCountLines : Obligations.StatusAndCountLines := by
  rintro p ⟨hrange, -⟩
  obtain ⟨hsuccess, hshort, hover, hthree⟩ := status_iff p.result
  refine ⟨hsuccess, hshort, hover, hthree, ?_, ?_⟩
  · intro w hw
    simp only [Response.signals, hw, Option.getD_some]
  · intro n hn
    obtain ⟨h1, h9⟩ := count_inRange hrange hn
    refine ⟨h1, h9, ?_⟩
    simp only [Response.signals, hn, Option.map_some, Option.getD_some, BitVec.toNat_ofNat]
    omega

end Sys2Proof.Proofs
end
